-- ==== Sys2Proof/Word.lean ====
section
/-! DEFINITION. The word types of the block, as 00_scope.md R6 gives their widths. -/

namespace Sys2Proof

/-- A memory cell, 8 bits (R6, R7). -/
abbrev Byte := BitVec 8

/-- An address, 16 bits (R6); `+` on it is the addition modulo 65536 of 20_memory.md R55. -/
abbrev Address := BitVec 16

/-- A 16-bit operand, length or accumulator half (R6). -/
abbrev Half := BitVec 16

/-- A response word, 32 bits (R6). -/
abbrev Word32 := BitVec 32

/-- A command word `CW[39:0]` (30_encoding.md R70, R72). -/
abbrev CommandWord := BitVec 40

/-- A byte count or offset as an address, reduced modulo 65536 (R55). -/
abbrev addrOf (n : Nat) : Address := BitVec.ofNat 16 n

end Sys2Proof
end

