-- ==== Sys2Proof/Syntax.lean ====
section
/-! DEFINITION. The nine commands (30_encoding.md R74), the causes of a command error (60_exceptions.md R162), a row of
the opcode table, and what the assembler can refuse (R80). -/

namespace Sys2Proof

/-- One constructor per row of spec/opcode_table.json; operands as 30_encoding.md R75 names them. -/
inductive Instr where
  /-- `CRC32 addr, len` (R92) -/
  | crc32 (addr len : Half)
  /-- `CRCST` (R93) -/
  | crcst
  /-- `ADRST` (R101) -/
  | adrst
  /-- `ADUPD addr, len` (R103) -/
  | adupd (addr len : Half)
  /-- `ADST` (R104) -/
  | adst
  /-- `CFG width, height, bpp` (R111) -/
  | cfg (width height : BitVec 8) (bpp : BitVec 4)
  /-- `BIND src, dst` (R112) -/
  | bind (src dst : Half)
  /-- `ROW` (R115) -/
  | row
  /-- `RD reg` (R130) -/
  | rd (reg : Half)
  deriving DecidableEq, Repr

/-- Why a command word is a command error (R162). The hardware does not store it. -/
inductive CommandErrorCause where
  | badOpcode
  | reservedNonzero
  | badOperand
  deriving DecidableEq, Repr

/-- A row of the opcode map (R74): `CW` has the row's encoding when `CW & mask = pattern`. -/
structure OpcodeRow where
  mnemonic : String
  pattern  : CommandWord
  mask     : CommandWord
  deriving DecidableEq, Repr

/-- Why the assembler of R80 refuses a line. -/
inductive AsmError where
  /-- the mnemonic is none of R80's and R81's -/
  | unknownMnemonic
  /-- the wrong number of operands -/
  | operandCount
  /-- an operand is no decimal or `0x` number (nor, for RD, a register name) -/
  | notANumber
  /-- an operand does not fit its field -/
  | doesNotFit
  deriving DecidableEq, Repr

end Sys2Proof
end

