-- ==== Sys2Proof/WellFormed.lean ====
section
/-! DEFINITION. Which operand values are legal: the column "Further condition" of 30_encoding.md R74. -/

namespace Sys2Proof

/-- The legal output bit depths 1, 2, 4, 8 (00_scope.md R6). -/
def legalDepth (d : BitVec 4) : Bool := d == 1 || d == 2 || d == 4 || d == 8

/-- R74's condition of CFG: width and height nonzero, a legal depth. -/
def legalConfig (width height : BitVec 8) (bpp : BitVec 4) : Bool :=
  width != 0 && height != 0 && legalDepth bpp

/-- R74's condition of RD: a read index of 0 to 8. -/
def legalReadIndex (reg : Half) : Bool := decide (reg.toNat ≤ 8)

/-- The further condition of the command's row in R74. -/
def Instr.wellFormed : Instr → Bool
  | .crc32 _ _ => true
  | .crcst => true
  | .adrst => true
  | .adupd _ _ => true
  | .adst => true
  | .cfg width height bpp => legalConfig width height bpp
  | .bind _ _ => true
  | .row => true
  | .rd reg => legalReadIndex reg

end Sys2Proof
end

