-- ==== Sys2Proof/Decode.lean ====
section
/-! DEFINITION. Decoding and encoding of the 40-bit command word (30_encoding.md R72 to R79). -/

namespace Sys2Proof

/-- OP, bits 39:32 (R72). -/
def opField (cw : CommandWord) : BitVec 8 := cw.extractLsb' 32 8

/-- A, bits 31:16 (R72). -/
def fieldA (cw : CommandWord) : Half := cw.extractLsb' 16 16

/-- B, bits 15:0 (R72). -/
def fieldB (cw : CommandWord) : Half := cw.extractLsb' 0 16

/-- Format N (R73): A and B must be 0. -/
def formatN (cw : CommandWord) (i : Instr) : Except CommandErrorCause Instr :=
  if fieldA cw = 0 ∧ fieldB cw = 0 then .ok i else .error .reservedNonzero

/-- Format AB (R73): two 16-bit operands, nothing reserved. -/
def formatAB (cw : CommandWord) (i : Half → Half → Instr) : Except CommandErrorCause Instr :=
  .ok (i (fieldA cw) (fieldB cw))

/-- Format A (R73): B must be 0. -/
def formatA (cw : CommandWord) (i : Half → Instr) : Except CommandErrorCause Instr :=
  if fieldB cw = 0 then .ok (i (fieldA cw)) else .error .reservedNonzero

/-- Format C (R73): A[15:8] = height, A[7:0] = width, B[15:4] must be 0, B[3:0] = bit depth. -/
def formatC (cw : CommandWord) (i : BitVec 8 → BitVec 8 → BitVec 4 → Instr) : Except CommandErrorCause Instr :=
  if (fieldB cw).extractLsb' 4 12 = 0 then
    .ok (i ((fieldA cw).extractLsb' 0 8) ((fieldA cw).extractLsb' 8 8) ((fieldB cw).extractLsb' 0 4))
  else .error .reservedNonzero

/-- The first two tests of the decode procedure R79: the opcode (R74), then the reserved fields (R73). The row's
further condition is tested by the command's own rule, as R111 and R130 write it (`Instr.wellFormed` is that
condition). DESIGN CHOICE: log entry 7. Safe. -/
def decode (cw : CommandWord) : Except CommandErrorCause Instr :=
  if opField cw = 0x01 then formatAB cw .crc32
  else if opField cw = 0x02 then formatN cw .crcst
  else if opField cw = 0x10 then formatN cw .adrst
  else if opField cw = 0x11 then formatAB cw .adupd
  else if opField cw = 0x12 then formatN cw .adst
  else if opField cw = 0x20 then formatC cw .cfg
  else if opField cw = 0x21 then formatAB cw .bind
  else if opField cw = 0x22 then formatN cw .row
  else if opField cw = 0x30 then formatA cw .rd
  else .error .badOpcode

/-- The whole decode procedure of R79: opcode, reserved fields, further condition. -/
def decodeLegal (cw : CommandWord) : Except CommandErrorCause Instr :=
  match decode cw with
  | .error cause => .error cause
  | .ok i => if i.wellFormed then .ok i else .error .badOperand

/-- The command word `{OP, A, B}` (R72). -/
def commandWord (op : BitVec 8) (a b : Half) : CommandWord := op ++ a ++ b

/-- The word of a command, from R73, R74 and R80. -/
def encode : Instr → CommandWord
  | .crc32 addr len => commandWord 0x01 addr len
  | .crcst => commandWord 0x02 0 0
  | .adrst => commandWord 0x10 0 0
  | .adupd addr len => commandWord 0x11 addr len
  | .adst => commandWord 0x12 0 0
  | .cfg width height bpp => commandWord 0x20 (height ++ width) ((0 : BitVec 12) ++ bpp)
  | .bind src dst => commandWord 0x21 src dst
  | .row => commandWord 0x22 0 0
  | .rd reg => commandWord 0x30 reg 0

/-- The row of the opcode map of R74 that a command belongs to. -/
def opcodeRow : Instr → OpcodeRow
  | .crc32 _ _ => ⟨"CRC32", 0x0100000000, 0xFF00000000⟩
  | .crcst => ⟨"CRCST", 0x0200000000, 0xFFFFFFFFFF⟩
  | .adrst => ⟨"ADRST", 0x1000000000, 0xFFFFFFFFFF⟩
  | .adupd _ _ => ⟨"ADUPD", 0x1100000000, 0xFF00000000⟩
  | .adst => ⟨"ADST", 0x1200000000, 0xFFFFFFFFFF⟩
  | .cfg _ _ _ => ⟨"CFG", 0x2000000000, 0xFF0000FFF0⟩
  | .bind _ _ => ⟨"BIND", 0x2100000000, 0xFF00000000⟩
  | .row => ⟨"ROW", 0x2200000000, 0xFFFFFFFFFF⟩
  | .rd _ => ⟨"RD", 0x3000000000, 0xFF0000FFFF⟩

/-- The nine rows of R74. -/
def opcodeTable : List OpcodeRow :=
  [opcodeRow (.crc32 0 0), opcodeRow .crcst, opcodeRow .adrst, opcodeRow (.adupd 0 0), opcodeRow .adst,
   opcodeRow (.cfg 0 0 0), opcodeRow (.bind 0 0), opcodeRow .row, opcodeRow (.rd 0)]

/-- `CW & mask = match` (R74). -/
def OpcodeRow.hasWord (r : OpcodeRow) (cw : CommandWord) : Bool := cw &&& r.mask == r.pattern

/-- The word that an instruction of `nbits` bits of value `w` puts on the command port; the bits above `nbits` are 0. -/
def tableWord (nbits w : Nat) : CommandWord := BitVec.ofNat 40 (w % 2 ^ nbits)

/-- What `decode` reads from the opcode-table word `w` of `nbits` bits (the one command length is 40 bits, R72). -/
def decodeTableWord (nbits w : Nat) : Option Instr :=
  if nbits ≤ 40 then (decode (tableWord nbits w)).toOption else none

end Sys2Proof
end

