-- ==== Sys2Proof/Config.lean ====
section
/-! DEFINITION. The open parameters of 00_scope.md R6 that are free values: `PAD` and `RESET_DRAW`.
(`MEM_ADMIT` is plain data in `State`; the CRC table, a constant, stands in Machine/Crc.lean.) -/

namespace Sys2Proof

/-- One draw of `RESET_DRAW`: the nine registers that 10_state.md R40 leaves unspecified after reset. -/
structure ResetDraw where
  psrc   : Address
  pdst   : Address
  ret    : Word32
  crcr   : Word32
  width  : BitVec 8
  height : BitVec 8
  bpp    : BitVec 4
  ada    : Half
  adb    : Half
  deriving DecidableEq, Repr, Inhabited

/-- `PAD` (42_row_serializer.md R116): the 8-bit draw of the n-th ROW that is not refused. A free value. DESIGN
CHOICE: draws are numbered by a counter (log entry 4). Safe. -/
opaque Config.pad : Nat → Byte

/-- `RESET_DRAW` (10_state.md R40) of the n-th reset asserted by the host. A free value. DESIGN CHOICE: draws are
numbered by a counter (log entry 3). Safe. -/
opaque Config.resetDraw : Nat → ResetDraw

end Sys2Proof
end

