-- ==== Sys2Proof/Machine/State.lean ====
section
/-! DEFINITION. The state of the block, of the memory it shares with the host, and of the host's side of the ports
(10_state.md R20 to R31, R40; 50_host_and_surroundings.md R140). Plain data. -/

namespace Sys2Proof.Machine

/-- The STATUS register (R25): four flags, bit 0 CFGD, bit 1 BOUND, bit 2 DONE, bit 3 ILL. -/
structure Status where
  cfgd  : Bool
  bound : Bool
  done  : Bool
  ill   : Bool
  deriving DecidableEq, Repr

/-- Memory (R29, 20_memory.md R50): the listed cells, in the canonical form `Memory.wf` of Machine/Ops.lean. -/
abbrev Memory := List Host.Cell

/-- The two kinds of access `MEM_ADMIT` speaks of (R56). -/
inductive AccessKind where
  | read
  | write
  deriving DecidableEq, Repr

/-- A range of addresses, both ends included, whose accesses of one kind the launch does not admit (R56). -/
structure Exclusion where
  kind  : AccessKind
  first : Address
  last  : Address
  deriving DecidableEq, Repr

/-- What the host can do to the block and its memory (R140). -/
inductive HostAction where
  /-- present a command word on the command port (30_encoding.md R70) -/
  | issue (cw : CommandWord)
  /-- a store of the host's own, between commands -/
  | store (a : Address) (v : Byte)
  /-- a load of the host's own, between commands -/
  | load (a : Address)
  /-- assert the reset input, between commands (R180) -/
  | reset
  deriving DecidableEq, Repr

/-- What the host gets back (R140): a response word (R71), or the byte of a load. -/
inductive HostEvent where
  | response (w : Word32)
  | loaded (a : Address) (v : Byte)
  deriving DecidableEq, Repr

/-- The machine. The first eleven fields are the block (R20). -/
structure State where
  /-- PSRC (R21) -/
  psrc   : Address
  /-- PDST (R22) -/
  pdst   : Address
  /-- RET (R23) -/
  ret    : Word32
  /-- CRCR (R23) -/
  crcr   : Word32
  /-- STATUS (R25) -/
  status : Status
  /-- WIDTH (R26) -/
  width  : BitVec 8
  /-- HEIGHT (R26) -/
  height : BitVec 8
  /-- BPP (R26) -/
  bpp    : BitVec 4
  /-- ROWCNT (R26) -/
  rowcnt : BitVec 8
  /-- ADA (R28) -/
  ada    : Half
  /-- ADB (R28) -/
  adb    : Half
  /-- the shared memory (R29) -/
  mem    : Memory
  /-- the host's remaining moves, next first (R140; log entry 1) -/
  host   : List HostAction
  /-- what the host got back, newest first (R140, R152; log entry 8) -/
  received : List HostEvent
  /-- the launch's `MEM_ADMIT` (R56), as what it does not admit; no step changes it (log entry 5) -/
  memAdmit : List Exclusion
  /-- the number of the next `PAD` draw (log entry 4) -/
  padIndex : Nat
  /-- the number of the next `RESET_DRAW` draw (log entry 3) -/
  resetIndex : Nat
  deriving DecidableEq, Repr

/-- Why a step faults. -/
inductive Fault where
  /-- Raised by CRC32, CRCST, ADUPD, ADST and ROW when the launch's `MEM_ADMIT` does not admit an access of theirs
  (R56, 93_implementation_defined.md U3, U8). Safe: the block itself goes on. Never raised when `memAdmit` is empty. -/
  | accessNotAdmitted
  deriving DecidableEq, Repr

/-- Why a step is refused by the model. (A refusal of the SPEC, R163, is a next state.) -/
inductive Refusal where
  /-- An instruction without a meaning. Raised by none: every row has its meaning. Safe. -/
  | notModelled (mnemonic : String)
  deriving DecidableEq, Repr

/-- What a step of this machine answers. -/
abbrev Result := Host.Outcome State Fault Refusal

/-- After reset (R40): the four flags and ROWCNT 0. DESIGN CHOICE: the nine registers R40 leaves unspecified are 0
(log entry 2, unsafe), memory lists nothing (log entry 6), the host has no move left (log entry 1), the launch admits
everything (log entry 5), both draw counters are 0 (log entries 3, 4). -/
def State.reset : State where
  psrc := 0
  pdst := 0
  ret := 0
  crcr := 0
  status := ⟨false, false, false, false⟩
  width := 0
  height := 0
  bpp := 0
  rowcnt := 0
  ada := 0
  adb := 0
  mem := []
  host := []
  received := []
  memAdmit := []
  padIndex := 0
  resetIndex := 0

end Sys2Proof.Machine
end

