-- ==== Sys2Proof/Machine/Flags.lean ====
section
/-! DEFINITION. The four flags of STATUS (10_state.md R25): their word, and every way a command sets or clears them. There
is no arithmetic condition code (R25). -/

namespace Sys2Proof.Machine

/-- `zext_32({ILL, DONE, BOUND, CFGD})` (R27, index 0). -/
def Status.toWord (f : Status) : Word32 :=
  (BitVec.ofBool f.ill ++ BitVec.ofBool f.done ++ BitVec.ofBool f.bound ++ BitVec.ofBool f.cfgd).setWidth 32

/-- STATUS after reset (R40). -/
def Status.afterReset : Status := ⟨false, false, false, false⟩

/-- A command error (60_exceptions.md R161). -/
def Status.raiseIll (f : Status) : Status := { f with ill := true }

/-- A legal CFG (R111): CFGD set, DONE cleared. -/
def Status.configure (f : Status) : Status := { f with cfgd := true, done := false }

/-- BIND (R112): BOUND set. -/
def Status.bindBuffers (f : Status) : Status := { f with bound := true }

/-- ROW (R115): DONE set by the last row only. -/
def Status.emitRow (f : Status) (last : Bool) : Status := { f with done := f.done || last }

/-- ROW is refused (R164): CFGD = 0, BOUND = 0 or DONE = 1. -/
def Status.refusesRow (f : Status) : Bool := !f.cfgd || !f.bound || f.done

/-- CRCST and ADST are refused (R164): BOUND = 0. -/
def Status.refusesStore (f : Status) : Bool := !f.bound

end Sys2Proof.Machine
end

