-- ==== Sys2Proof/Machine/Ops.lean ====
section
/-! DEFINITION. The shared operations: `MemRead` and `MemWrite` (00_scope.md R10, 20_memory.md R51), `respond`, `refuse`
and `raise CommandError` (R10), and the launch's `MEM_ADMIT` (R56). -/

namespace Sys2Proof.Machine

/-- What a cell that memory does not list reads as. R51: "whatever the platform left there". DESIGN CHOICE: 0x00
(log entry 6). Unsafe. -/
def unlistedByte : Byte := 0x00

/-- The listed cells lie at `lo` or above and below 65536, strictly rising, and none holds `unlistedByte`. -/
def Memory.wfFrom (lo : Nat) : Memory → Bool
  | [] => true
  | (a, v) :: rest => decide (lo ≤ a) && decide (a < 65536) && v != unlistedByte && Memory.wfFrom (a + 1) rest

/-- The canonical form of memory (R50): one list for each content of the 65536 cells. -/
def Memory.wf (m : Memory) : Bool := Memory.wfFrom 0 m

/-- The byte at a cell. -/
def Memory.read (m : Memory) (a : Nat) : Byte :=
  match m with
  | [] => unlistedByte
  | (b, w) :: rest => if a = b then w else Memory.read rest a

/-- `m` with cell `a` listed first: nothing where `v` is what an unlisted cell reads as. -/
def Memory.consCell (a : Nat) (v : Byte) (m : Memory) : Memory :=
  if v = unlistedByte then m else (a, v) :: m

/-- Replace the content of one cell, keeping the canonical form. -/
def Memory.write (m : Memory) (a : Nat) (v : Byte) : Memory :=
  match m with
  | [] => Memory.consCell a v []
  | (b, w) :: rest =>
    if a < b then Memory.consCell a v ((b, w) :: rest)
    else if a = b then Memory.consCell a v rest
    else (b, w) :: Memory.write rest a v

/-- `MemRead(addr, 1)` (R51). -/
def State.memRead (s : State) (a : Address) : Byte := s.mem.read a.toNat

/-- `MemWrite(addr, 1, v)` (R51). -/
def State.memWrite (s : State) (a : Address) (v : Byte) : State := { s with mem := s.mem.write a.toNat v }

/-- Single-byte writes at ascending addresses, modulo 65536, in the order of the list (R11, R55). -/
def State.writeBytes (s : State) (a : Address) (bytes : List Byte) : State :=
  match bytes with
  | [] => s
  | v :: rest => (s.memWrite a v).writeBytes (a + 1) rest

/-- The bytes of a 32-bit field, big-endian (20_memory.md R52). -/
def bigEndian (w : Word32) : List Byte :=
  [w.extractLsb' 24 8, w.extractLsb' 16 8, w.extractLsb' 8 8, w.extractLsb' 0 8]

/-- The bytes of a 16-bit field, little-endian (R52). -/
def littleEndian (h : Half) : List Byte := [h.extractLsb' 0 8, h.extractLsb' 8 8]

/-- `respond(v)` (R10, 30_encoding.md R71): RET gets `v`, and `v` is the response word the host gets. -/
def State.respond (s : State) (v : Word32) : State :=
  { s with ret := v, received := .response v :: s.received }

/-- `refuse` (R10, 60_exceptions.md R163). -/
def State.refuse (s : State) : State := s.respond 0

/-- `raise CommandError(cause)` (R10, R161): ILL set, RET and the response 0, nothing else; the cause is not stored
(R162). The block's one exception; there is no return from it (R168). -/
def State.raiseCommandError (s : State) (_cause : CommandErrorCause) : State :=
  { s with status := s.status.raiseIll }.respond 0

/-- The exclusion covers an access of kind `k` to cell `a`. -/
def Exclusion.covers (e : Exclusion) (k : AccessKind) (a : Address) : Bool :=
  e.kind == k && decide (e.first.toNat ≤ a.toNat) && decide (a.toNat ≤ e.last.toNat)

/-- `MEM_ADMIT` of (address, read or write) (R56). -/
def State.admits (s : State) (k : AccessKind) (a : Address) : Bool := !s.memAdmit.any fun e => e.covers k a

/-- The launch admits an access of kind `k` to each of the `n` cells from `a`, modulo 65536 (R55, R56). -/
def State.admitsSpan (s : State) (k : AccessKind) (a : Address) (n : Nat) : Bool :=
  (List.range n).all fun i => s.admits k (a + addrOf i)

/-- A command with all its accesses admitted completes with `t`; one with a rejected access faults (R56,
93_implementation_defined.md U3). DESIGN CHOICE: log entry 5. Safe. -/
def completeIf (admitted : Bool) (t : State) : Result :=
  if admitted then .next t else .fault .accessNotAdmitted

end Sys2Proof.Machine
end

