-- ==== Sys2Proof/Machine/Operands.lean ====
section
/-! DEFINITION. The operand forms of the commands: a buffer in memory (CRC32, ADUPD; 20_memory.md R55), and a register by
read index (RD; 10_state.md R27). Every other operand is the unsigned value of its field (30_encoding.md R75). -/

namespace Sys2Proof.Machine

/-- The buffer of length `n` at `a`: the cells `(a + i) mod 65536` for `i = 0 .. n-1`, in that order (R55). -/
def State.buffer (s : State) (a : Address) (n : Nat) : List Byte :=
  (List.range n).map fun i => s.memRead (a + addrOf i)

/-- The Adler word `{ADB, ADA}` (41_adler32.md R105). -/
def State.adlerWord (s : State) : Word32 := s.adb ++ s.ada

/-- `x[i]`, the 32-bit value of read index `i`; indices above 8 select nothing (R27). -/
def State.readIndex (s : State) (i : Half) : Option Word32 :=
  match i.toNat with
  | 0 => some s.status.toWord
  | 1 => some s.ret
  | 2 => some s.crcr
  | 3 => some s.adlerWord
  | 4 => some (s.psrc.setWidth 32)
  | 5 => some (s.pdst.setWidth 32)
  | 6 => some ((s.height ++ s.width).setWidth 32)
  | 7 => some (s.bpp.setWidth 32)
  | 8 => some (s.rowcnt.setWidth 32)
  | _ => none

/-- The store of a 32-bit value big-endian at PDST that CRCST (R93) and ADST (R104) share: four bytes written, PDST
advanced by 4 modulo 65536, response 4. -/
def State.storeAtCursor (s : State) (w : Word32) : State :=
  { s.writeBytes s.pdst (bigEndian w) with pdst := s.pdst + 4 }.respond 4

/-- CRCST and ADST, but for the value stored: refused when BOUND = 0 (R164). -/
def storeCommand (s : State) (w : Word32) : Result :=
  if s.status.refusesStore then .next s.refuse
  else completeIf (s.admitsSpan .write s.pdst 4) (s.storeAtCursor w)

end Sys2Proof.Machine
end

