-- ==== Sys2Proof/Machine/Adler.lean ====
section
/-! DEFINITION. The Adler-32 accumulator: ADRST, ADUPD and ADST (41_adler32.md). -/

namespace Sys2Proof.Machine

/-- The Adler modulus (00_scope.md R6). -/
def adlerModulus : Nat := 65521

/-- The new `a` of R102: `(ADA + v) mod 65521`, the sum formed without loss. -/
def adlerA (a : Half) (v : Byte) : Half := BitVec.ofNat 16 ((a.toNat + v.toNat) % adlerModulus)

/-- The new `b` of R102: `(ADB + a1) mod 65521`, from the NEW `a`. -/
def adlerB (b a1 : Half) : Half := BitVec.ofNat 16 ((b.toNat + a1.toNat) % adlerModulus)

/-- `adler_byte(v)` (R102). -/
def State.adlerByte (s : State) (v : Byte) : State :=
  { s with ada := adlerA s.ada v, adb := adlerB s.adb (adlerA s.ada v) }

/-- `adler_byte` for each byte in order. -/
def State.adlerBytes (s : State) (bytes : List Byte) : State := bytes.foldl State.adlerByte s

/-- `ADA <- 1; ADB <- 0` (R101, and R115 at the start of an encode). -/
def State.adlerReset (s : State) : State := { s with ada := 1, adb := 0 }

/-- ADRST (R101): the response is the Adler word after the reset. -/
def execAdrst (s : State) : Result := .next (s.adlerReset.respond 1)

/-- The effect of ADUPD (R103): one update per byte, then the Adler word is the response. -/
def State.adupdEffect (s : State) (addr len : Half) : State :=
  (s.adlerBytes (s.buffer addr len.toNat)).respond (s.adlerBytes (s.buffer addr len.toNat)).adlerWord

/-- ADUPD (R103). -/
def execAdupd (addr len : Half) (s : State) : Result :=
  completeIf (s.admitsSpan .read addr len.toNat) (s.adupdEffect addr len)

/-- ADST (R104): big-endian, the `b` half first (R105). -/
def execAdst (s : State) : Result := storeCommand s s.adlerWord

end Sys2Proof.Machine
end

