-- ==== Sys2Proof/Machine/Serializer.lean ====
section
/-! DEFINITION. The bit-packed pixel row serializer: CFG, BIND and ROW (42_row_serializer.md). -/

namespace Sys2Proof.Machine

/-- The effect of a legal CFG (R111). -/
def State.cfgEffect (s : State) (width height : BitVec 8) (bpp : BitVec 4) : State :=
  { s with width := width, height := height, bpp := bpp, rowcnt := 0, status := s.status.configure }.respond 1

/-- CFG (R111). (Its reserved field B[15:4] is tested by `decode`, R79.) -/
def execCfg (width height : BitVec 8) (bpp : BitVec 4) (s : State) : Result :=
  if legalConfig width height bpp then .next (s.cfgEffect width height bpp)
  else .next (s.raiseCommandError .badOperand)

/-- BIND (R112). -/
def execBind (src dst : Half) (s : State) : Result :=
  .next ({ s with psrc := src, pdst := dst, status := s.status.bindBuffers }.respond 1)

/-- `ppb = 8 div BPP` (R113). -/
def State.pixelsPerByte (s : State) : Nat := 8 / s.bpp.toNat

/-- `rb = (WIDTH * BPP + 7) div 8` (R113). -/
def State.rowBytes (s : State) : Nat := (s.width.toNat * s.bpp.toNat + 7) / 8

/-- `blen = rb + 1`, a 16-bit value (R113). -/
def State.blockLength (s : State) : Half := BitVec.ofNat 16 (s.rowBytes + 1)

/-- `ROWCNT = HEIGHT - 1` (R113), on unbounded integers (00_scope.md R9). -/
def State.lastRow (s : State) : Bool := decide (s.rowcnt.toNat + 1 = s.height.toNat)

/-- The framing-block header (R113): the final-block flag byte, `blen` and its complement, both little-endian. -/
def State.rowHeader (s : State) : List Byte :=
  (if s.lastRow then 0x01 else 0x00) :: (littleEndian s.blockLength ++ littleEndian (~~~ s.blockLength))

/-- The row-filter marker byte, "no filtering" (R115, 93_implementation_defined.md G8). -/
def filterByte : Byte := 0x00

/-- `m = 2^BPP - 1` (R114). -/
def State.pixelMask (s : State) : Byte := BitVec.ofNat 8 (2 ^ s.bpp.toNat - 1)

/-- The shift that puts pixel `k` of a byte in its place: `8 - (k+1)*BPP` (R114). -/
def State.pixelShift (s : State) (k : Nat) : Nat := 8 - (k + 1) * s.bpp.toNat

/-- The field of pixel `i`, which is pixel `k` of its byte: the masked pixel, or beyond WIDTH the padding field of the
draw `p` (R115, R116). -/
def State.pixelField (s : State) (p : Byte) (i k : Nat) : Byte :=
  if i < s.width.toNat then s.memRead (s.psrc + addrOf i) &&& s.pixelMask
  else (p >>> s.pixelShift k) &&& s.pixelMask

/-- Packed byte `j` of the row (R114, R115), the pixels read from memory as it stands. -/
def State.packedByte (s : State) (p : Byte) (j : Nat) : Byte :=
  (List.range s.pixelsPerByte).foldl
    (fun v k => v ||| (s.pixelField p (j * s.pixelsPerByte + k) k <<< s.pixelShift k)) 0

/-- Write `v` at PDST + `offset` and give the same byte to `adler_byte` (R115 steps b, c, d; R116). -/
def State.emitByte (s : State) (offset : Nat) (v : Byte) : State :=
  (s.memWrite (s.pdst + addrOf offset) v).adlerByte v

/-- One turn of the packing loop (R115 steps c and d). -/
def State.emitPacked (p : Byte) (s : State) (j : Nat) : State := s.emitByte (6 + j) (s.packedByte p j)

/-- The first row of an image resets the Adler pair (R115). -/
def State.startRow (s : State) : State := if s.rowcnt = 0 then s.adlerReset else s

/-- Steps a to d of R115 in order: header, filter byte, packed bytes. -/
def State.writeRow (s : State) (p : Byte) : State :=
  (List.range s.rowBytes).foldl (State.emitPacked p)
    ((s.startRow.writeBytes s.pdst s.rowHeader).emitByte 5 filterByte)

/-- The registers after a row (R115): the cursors, ROWCNT, DONE on the last row. The `PAD` draw is consumed. -/
def State.advanceRow (s : State) : State :=
  { s with
    psrc := s.psrc + addrOf s.width.toNat
    pdst := s.pdst + addrOf (6 + s.rowBytes)
    rowcnt := s.rowcnt + 1
    status := s.status.emitRow s.lastRow
    padIndex := s.padIndex + 1 }

/-- The effect of a ROW that is not refused (R115). -/
def State.rowEffect (s : State) (p : Byte) : State :=
  (s.writeRow p).advanceRow.respond (BitVec.ofNat 32 (6 + s.rowBytes))

/-- Every access of the row is admitted by the launch (R54, R56). -/
def State.admitsRow (s : State) : Bool :=
  s.admitsSpan .write s.pdst (6 + s.rowBytes) && s.admitsSpan .read s.psrc s.width.toNat

/-- ROW with the `PAD` draw `p` (R115, R116). -/
def execRowWith (p : Byte) (s : State) : Result :=
  if s.status.refusesRow then .next s.refuse else completeIf s.admitsRow (s.rowEffect p)

/-- ROW (R115): the draw is the free value `Config.pad` (log entry 4). -/
def execRow (s : State) : Result := execRowWith (Config.pad s.padIndex) s

end Sys2Proof.Machine
end

