-- ==== Sys2Proof/Machine/System.lean ====
section
/-! DEFINITION. Register access: RD (43_system.md). -/

namespace Sys2Proof.Machine

/-- RD (R130): the register's value, read before RET changes, is the response. (Its reserved field B is tested by
`decode`, R79.) -/
def execRd (reg : Half) (s : State) : Result :=
  match s.readIndex reg with
  | some v => .next (s.respond v)
  | none => .next (s.raiseCommandError .badOperand)

end Sys2Proof.Machine
end

