-- ==== Sys2Proof/Machine/Dispatch.lean ====
section
/-! DEFINITION. One arm per command: the meaning of each row of the opcode map (30_encoding.md R74). -/

namespace Sys2Proof.Machine

def exec (i : Instr) (s : State) : Host.Outcome State Fault Refusal :=
  match i with
  | .crc32 addr len => Sys2Proof.Machine.execCrc32 addr len s
  | .crcst => Sys2Proof.Machine.execCrcst s
  | .adrst => Sys2Proof.Machine.execAdrst s
  | .adupd addr len => Sys2Proof.Machine.execAdupd addr len s
  | .adst => Sys2Proof.Machine.execAdst s
  | .cfg width height bpp => Sys2Proof.Machine.execCfg width height bpp s
  | .bind src dst => Sys2Proof.Machine.execBind src dst s
  | .row => Sys2Proof.Machine.execRow s
  | .rd reg => Sys2Proof.Machine.execRd reg s

end Sys2Proof.Machine
end

