-- ==== Sys2Proof/Machine/Command.lean ====
section
/-! DEFINITION. What one move of the host does (50_host_and_surroundings.md R140): a command word on the command port
(30_encoding.md R70, R79), a store or a load of the host's own, the reset input (70_reset_and_hazards.md R180). -/

namespace Sys2Proof.Machine

/-- The block executes a command word to completion (R70, R79): an illegal word is a command error (43_system.md R131).
`decode` finds BadOpcode and ReservedNonzero, the command's own meaning BadOperand (log entry 7). -/
def runCommand (cw : CommandWord) (s : State) : Result :=
  match decode cw with
  | .error cause => .next (s.raiseCommandError cause)
  | .ok i => exec i s

/-- Reset of the block with the draw `d` (10_state.md R40): every register, and no memory cell. -/
def State.resetBlock (s : State) (d : ResetDraw) : State :=
  { s with
    psrc := d.psrc
    pdst := d.pdst
    ret := d.ret
    crcr := d.crcr
    status := Status.afterReset
    width := d.width
    height := d.height
    bpp := d.bpp
    rowcnt := 0
    ada := d.ada
    adb := d.adb }

/-- A load of the host's own gives it the cell's byte and changes nothing else (R140). -/
def State.hostLoad (s : State) (a : Address) : State :=
  { s with received := .loaded a (s.memRead a) :: s.received }

/-- The host asserts reset: the draw is the free value `Config.resetDraw` (log entry 3). -/
def State.hostReset (s : State) : State :=
  { s.resetBlock (Config.resetDraw s.resetIndex) with resetIndex := s.resetIndex + 1 }

/-- One move of the host (R140). -/
def runAction (act : HostAction) (s : State) : Result :=
  match act with
  | .issue cw => runCommand cw s
  | .store a v => .next (s.memWrite a v)
  | .load a => .next (s.hostLoad a)
  | .reset => .next s.hostReset

/-- No move of the host is left: the block is idle and keeps all its registers (60_exceptions.md R174, R152). -/
def idle (s : State) : Result := .next s

end Sys2Proof.Machine
end

