-- ==== Sys2Proof/Machine/Step.lean ====
section
/-! DEFINITION. One step of the machine: the next move of the host, or idle. DESIGN CHOICE: log entry 1. Safe. -/

namespace Sys2Proof.Machine

/-- One step. -/
def step (s : State) : Host.Outcome State Fault Refusal :=
  match s.host with
  | [] => Sys2Proof.Machine.idle s
  | act :: rest => Sys2Proof.Machine.runAction act { s with host := rest }

/-- `s` with the command word at the front of the host's moves: the next step takes it from the command port. -/
def State.withFetchWord (s : State) (nbits w : Nat) : State :=
  { s with host := .issue (tableWord nbits w) :: s.host }

end Sys2Proof.Machine
end

