-- ==== Sys2Proof/Machine/Assembler.lean ====
section
/-! DEFINITION. The assembler of 30_encoding.md R80 and R81, from text to commands and command words. A text is a list of
characters. DESIGN CHOICE: blanks, digit case and RD indices above 8 (log entry 11). Safe. -/

namespace Sys2Proof.Machine

/-- A blank between the parts of a line (log entry 11). -/
def isBlank (c : Char) : Bool := c == ' ' || c == '\t' || c == '\r'

/-- The text without blanks at its two ends. -/
def trimBlanks (t : List Char) : List Char := ((t.dropWhile isBlank).reverse.dropWhile isBlank).reverse

/-- A `;` starts a comment that runs to the end of the line (R80). -/
def stripComment (t : List Char) : List Char := t.takeWhile (· != ';')

/-- The pieces of a text between the separators. -/
def splitText (sep : Char) : List Char → List (List Char)
  | [] => [[]]
  | c :: rest =>
    if c = sep then [] :: splitText sep rest
    else
      match splitText sep rest with
      | [] => [[c]]
      | w :: ws => (c :: w) :: ws

/-- The value of a digit in a base of at most 16. -/
def digitValue (base : Nat) (c : Char) : Option Nat :=
  let v := if '0' ≤ c ∧ c ≤ '9' then c.toNat - 48
    else if 'a' ≤ c ∧ c ≤ 'f' then c.toNat - 87
    else if 'A' ≤ c ∧ c ≤ 'F' then c.toNat - 55
    else base
  if v < base then some v else none

/-- The number that digits go on to, from the value read so far. -/
def digitsFrom (base acc : Nat) : List Char → Option Nat
  | [] => some acc
  | c :: rest =>
    match digitValue base c with
    | some v => digitsFrom base (acc * base + v) rest
    | none => none

/-- A number: `0x` hexadecimal, or decimal (R80). -/
def parseNumber : List Char → Option Nat
  | [] => none
  | ['0', 'x'] => none
  | '0' :: 'x' :: ds => digitsFrom 16 0 ds
  | ds => digitsFrom 10 0 ds

/-- An operand is refused when it does not fit its field (R80). -/
def operand (max : Nat) (t : List Char) : Except AsmError Nat :=
  match parseNumber t with
  | none => .error .notANumber
  | some n => if n ≤ max then .ok n else .error .doesNotFit

/-- Two 16-bit operands. -/
def twoHalves (i : Half → Half → Instr) (a b : List Char) : Except AsmError (List Instr) :=
  match operand 65535 a, operand 65535 b with
  | .ok x, .ok y => .ok [i (BitVec.ofNat 16 x) (BitVec.ofNat 16 y)]
  | .error e, _ => .error e
  | _, .error e => .error e

/-- `CFG width, height, bpp` (R80): values that fit but are illegal are not refused. -/
def asmCfg (w h d : List Char) : Except AsmError (List Instr) :=
  match operand 255 w, operand 255 h, operand 15 d with
  | .ok x, .ok y, .ok z => .ok [.cfg (BitVec.ofNat 8 x) (BitVec.ofNat 8 y) (BitVec.ofNat 4 z)]
  | .error e, _, _ => .error e
  | _, .error e, _ => .error e
  | _, _, .error e => .error e

/-- The register names of RD, in the order of their read indices (10_state.md R27). -/
def registerNames : List (List Char) :=
  ["STATUS".toList, "RET".toList, "CRCR".toList, "ADLER".toList, "PSRC".toList, "PDST".toList, "DIMS".toList,
   "BPP".toList, "ROWCNT".toList]

/-- `RD reg` (R80): a name or an index. -/
def asmRd (reg : List Char) : Except AsmError (List Instr) :=
  match registerNames.findIdx? (· == reg) with
  | some i => .ok [.rd (BitVec.ofNat 16 i)]
  | none =>
    match operand 65535 reg with
    | .ok n => .ok [.rd (BitVec.ofNat 16 n)]
    | .error e => .error e

/-- `ROWS n` (R81): ROW repeated n times, n from 1 to 255. -/
def asmRows (n : List Char) : Except AsmError (List Instr) :=
  match operand 255 n with
  | .ok k => if k = 0 then .error .doesNotFit else .ok (List.replicate k .row)
  | .error e => .error e

/-- `ADLER32 addr, len` (R81): ADRST, then ADUPD. -/
def asmAdler32 (a b : List Char) : Except AsmError (List Instr) :=
  match twoHalves .adupd a b with
  | .ok is => .ok (.adrst :: is)
  | .error e => .error e

/-- The mnemonics of R80 and R81. -/
def mnemonics : List (List Char) :=
  ["CRC32".toList, "CRCST".toList, "ADRST".toList, "ADUPD".toList, "ADST".toList, "CFG".toList, "BIND".toList,
   "ROW".toList, "RD".toList, "ROWS".toList, "ADLER32".toList]

/-- A mnemonic, by its place in `mnemonics`, with its operands. -/
def asmCommand (mnemonic : Nat) (ops : List (List Char)) : Except AsmError (List Instr) :=
  match mnemonic, ops with
  | 0, [a, b] => twoHalves .crc32 a b
  | 1, [] => .ok [.crcst]
  | 2, [] => .ok [.adrst]
  | 3, [a, b] => twoHalves .adupd a b
  | 4, [] => .ok [.adst]
  | 5, [w, h, d] => asmCfg w h d
  | 6, [a, b] => twoHalves .bind a b
  | 7, [] => .ok [.row]
  | 8, [r] => asmRd r
  | 9, [n] => asmRows n
  | 10, [a, b] => asmAdler32 a b
  | _, _ => .error .operandCount

/-- The operands of a line, separated by commas. -/
def operandTexts (t : List Char) : List (List Char) :=
  if t = [] then [] else (splitText ',' t).map trimBlanks

/-- One line (R80): the mnemonic in capitals, then the operands separated by commas; a line may be empty. -/
def asmLine (line : List Char) : Except AsmError (List Instr) :=
  let t := trimBlanks (stripComment line)
  if t = [] then .ok []
  else
    match mnemonics.findIdx? (· == t.takeWhile fun c => !isBlank c) with
    | none => .error .unknownMnemonic
    | some k => asmCommand k (operandTexts (trimBlanks (t.dropWhile fun c => !isBlank c)))

/-- The lines of a program, in order. -/
def asmLines : List (List Char) → Except AsmError (List Instr)
  | [] => .ok []
  | line :: rest =>
    match asmLine line, asmLines rest with
    | .ok is, .ok more => .ok (is ++ more)
    | .error e, _ => .error e
    | _, .error e => .error e

/-- A program text: one command per line (R80). -/
def assembleText (t : List Char) : Except AsmError (List CommandWord) :=
  match asmLines (splitText '\n' t) with
  | .ok is => .ok (is.map encode)
  | .error e => .error e

end Sys2Proof.Machine
end

