-- ==== Sys2Proof/Safety.lean ====
section
/-! DEFINITION. The terms the statements use: the invariants of a run, what a command reads and writes, when a word is
illegal and a command refused, and the checksums and pixel positions in plain arithmetic, written from the rules and not
from the machine's own definitions. -/

namespace Sys2Proof.Machine

/-! The invariants. -/

/-- 10_state.md R31 (a), (b), (c). -/
abbrev ConfigInvariant (s : State) : Prop :=
  (s.status.cfgd = true →
    (1 ≤ s.width.toNat ∧ 1 ≤ s.height.toNat ∧ s.bpp.toNat ∈ [1, 2, 4, 8]) ∧
    s.rowcnt.toNat ≤ s.height.toNat ∧ (s.status.done = true ↔ s.rowcnt = s.height)) ∧
  (s.status.cfgd = false → s.rowcnt = 0 ∧ s.status.done = false)

/-- 10_state.md R28: both halves of the Adler pair in the range 0 to 65520. -/
abbrev AdlerReduced (s : State) : Prop := s.ada.toNat ≤ 65520 ∧ s.adb.toNat ≤ 65520

/-- The launch admits every access (R56: "With `MEM_ADMIT` admitting everything, the rules of this spec are total"). -/
abbrev AdmitsEverything (s : State) : Prop := s.memAdmit = []

/-- The host's next move is to assert reset. -/
abbrev HostResets (s : State) : Prop := s.host.head? = some .reset

/-! What a command touches. -/

/-- The cell `c` is one of the `n` cells from `a`, modulo 65536 (20_memory.md R55). -/
abbrev InSpan (a : Address) (n : Nat) (c : Address) : Prop := (c - a).toNat < n

/-- Refusals (60_exceptions.md R164). -/
def RefusalHolds (i : Instr) (s : State) : Prop :=
  match i with
  | .crc32 _ _ => False
  | .crcst => s.status.bound = false
  | .adrst => False
  | .adupd _ _ => False
  | .adst => s.status.bound = false
  | .cfg _ _ _ => False
  | .bind _ _ => False
  | .row => s.status.cfgd = false ∨ s.status.bound = false ∨ s.status.done = true
  | .rd _ => False

/-- How many cells a command writes from PDST when it is not refused (20_memory.md R54). -/
def bytesWritten (i : Instr) (s : State) : Nat :=
  match i with
  | .crc32 _ _ => 0
  | .crcst => 4
  | .adrst => 0
  | .adupd _ _ => 0
  | .adst => 4
  | .cfg _ _ _ => 0
  | .bind _ _ => 0
  | .row => 6 + (s.width.toNat * s.bpp.toNat + 7) / 8
  | .rd _ => 0

/-- The cells a command reads (R54): the first of them, and how many. -/
def cellsRead (i : Instr) (s : State) : Address × Nat :=
  match i with
  | .crc32 addr len => (addr, len.toNat)
  | .crcst => (0, 0)
  | .adrst => (0, 0)
  | .adupd addr len => (addr, len.toNat)
  | .adst => (0, 0)
  | .cfg _ _ _ => (0, 0)
  | .bind _ _ => (0, 0)
  | .row => (s.psrc, s.width.toNat)
  | .rd _ => (0, 0)

/-- Every access of the command is admitted by the launch (R56). -/
def AccessesAdmitted (i : Instr) (s : State) : Prop :=
  (∀ c, InSpan s.pdst (bytesWritten i s) c → s.admits .write c = true) ∧
  (∀ c, InSpan (cellsRead i s).1 (cellsRead i s).2 c → s.admits .read c = true)

/-- What the host gets for a command that answers `w`: one response word, before what it got earlier. -/
abbrev State.responses (s : State) (w : Word32) : List HostEvent := .response w :: s.received

/-! Illegal words (30_encoding.md R77), in arithmetic on the word's number. -/

/-- OP, A, B of a word, as numbers (R72). -/
def opNat (cw : CommandWord) : Nat := cw.toNat / 2 ^ 32

/-- A of a word. -/
def aNat (cw : CommandWord) : Nat := cw.toNat / 2 ^ 16 % 2 ^ 16

/-- B of a word. -/
def bNat (cw : CommandWord) : Nat := cw.toNat % 2 ^ 16

/-- (a) of R77. -/
def UnassignedOpcode (cw : CommandWord) : Prop := opNat cw ∉ [0x01, 0x02, 0x10, 0x11, 0x12, 0x20, 0x21, 0x22, 0x30]

/-- (b), (c), (e) of R77: a reserved field is nonzero. -/
def ReservedFieldNonzero (cw : CommandWord) : Prop :=
  (opNat cw ∈ [0x02, 0x10, 0x12, 0x22] ∧ (aNat cw ≠ 0 ∨ bNat cw ≠ 0)) ∨
  (opNat cw = 0x30 ∧ bNat cw ≠ 0) ∨
  (opNat cw = 0x20 ∧ bNat cw / 16 ≠ 0)

/-- (d), (f), (g) of R77: an operand has a value the block does not support. -/
def UnsupportedOperand (cw : CommandWord) : Prop :=
  (opNat cw = 0x30 ∧ 8 < aNat cw) ∨
  (opNat cw = 0x20 ∧ (bNat cw % 16 ∉ [1, 2, 4, 8] ∨ aNat cw % 256 = 0 ∨ aNat cw / 256 = 0))

/-- R77. -/
def IllegalWord (cw : CommandWord) : Prop := UnassignedOpcode cw ∨ ReservedFieldNonzero cw ∨ UnsupportedOperand cw

/-! The CRC, one bit at a time. -/

/-- One step of R91's computation: a reflected shift by one bit, with the polynomial where a 1 leaves. -/
def crcBitStep (c : Word32) : Word32 := if c.getLsbD 0 then 0xEDB88320 ^^^ (c >>> 1) else c >>> 1

/-- `n` such steps. -/
def crcBitSteps : Nat → Word32 → Word32
  | 0, c => c
  | n + 1, c => crcBitSteps n (crcBitStep c)

/-- A CRC-32 without a table: each byte is added to the low bits and shifted through, bit by bit. -/
def crcBitSerial (bytes : List Byte) : Word32 :=
  bytes.foldl (fun c d => crcBitSteps 8 (c ^^^ d.setWidth 32)) 0xFFFFFFFF ^^^ 0xFFFFFFFF

/-! Adler-32 on numbers. -/

/-- 41_adler32.md R102, on the pair (a, b) of numbers: the new `a` enters the new `b`. -/
def adlerPairStep (p : Nat × Nat) (v : Byte) : Nat × Nat :=
  ((p.1 + v.toNat) % 65521, (p.2 + (p.1 + v.toNat) % 65521) % 65521)

/-- One update per byte in order, from the pair `p`. -/
def adlerPairRun (p : Nat × Nat) (bytes : List Byte) : Nat × Nat := bytes.foldl adlerPairStep p

/-- The pair of a state. -/
def State.adlerPair (s : State) : Nat × Nat := (s.ada.toNat, s.adb.toNat)

/-- The sum of the bytes. -/
def byteSum : List Byte → Nat
  | [] => 0
  | v :: rest => v.toNat + byteSum rest

/-- The sum over i of (n - i) * m[i], n the length (R106 (a)). -/
def weightedByteSum : List Byte → Nat
  | [] => 0
  | v :: rest => (rest.length + 1) * v.toNat + weightedByteSum rest

/-! Rows and images. -/

/-- The field of pixel `k` in a packed byte at depth `bpp`: bits `[7 - k*BPP : 8 - (k+1)*BPP]` (R114). -/
def packedField (v : Byte) (bpp k : Nat) : Nat := v.toNat / 2 ^ (8 - (k + 1) * bpp) % 2 ^ bpp

/-- Row bytes of a configuration: the least integer not less than WIDTH * BPP / 8 (R113). -/
def rowBytesOf (width bpp : Nat) : Nat := (width * bpp + 7) / 8

/-- The bytes of a row that the Adler pair runs over, as they stand in memory after the row was written from `dst`: the
filter byte and the packed bytes (R115, R118). -/
def State.checksummedBytes (t : State) (dst : Address) (rb : Nat) : List Byte := t.buffer (dst + 5) (1 + rb)

/-- Issue ROW `n` times from `s`: the last state, the bytes each row put in the decompressed stream as they stood right
after it, in order (R118), and the sum of the responses (R117). `none` if a ROW does not answer a next state. -/
def rowRun : Nat → State → Option (State × List Byte × Nat)
  | 0, s => some (s, [], 0)
  | n + 1, s =>
    match exec .row s with
    | .next t =>
      match rowRun n t with
      | some (u, bytes, total) =>
        some (u, t.checksummedBytes s.pdst (rowBytesOf s.width.toNat s.bpp.toNat) ++ bytes, t.ret.toNat + total)
      | none => none
    | _ => none

end Sys2Proof.Machine
end

