-- ==== Sys2Proof/Certificates/Slice0/Obligations.lean ====
section
/-! DEFINITION. The statements for the provers. Each docstring names the rule of spec/ it formalises; a sentence that is the
model's own choice says so and names its log entry. -/

open Sys2Proof Sys2Proof.Machine

/-! Reset, the host's moves, and the step. -/

/-- 10_state.md R40: what reset leaves, as a move of the host. The nine unspecified registers hold SOME draw (that the
draw is `Config.resetDraw`, and its counter, is the model's choice, log entry 3); memory is not changed. Beside the rule:
the host's move is used up, and nothing else of the model changes. -/
def Obligations.ResetLeavesFlagsZeroAndMemory : Prop :=
  ∀ (s : State) (rest : List HostAction), s.host = .reset :: rest →
    ∃ (d : ResetDraw) (t : State), step s = .next t ∧
      t.status = ⟨false, false, false, false⟩ ∧ t.rowcnt = 0 ∧
      t.width = d.width ∧ t.height = d.height ∧ t.bpp = d.bpp ∧ t.psrc = d.psrc ∧ t.pdst = d.pdst ∧
      t.ret = d.ret ∧ t.crcr = d.crcr ∧ t.ada = d.ada ∧ t.adb = d.adb ∧
      t.mem = s.mem ∧ t.host = rest ∧ t.received = s.received ∧ t.memAdmit = s.memAdmit ∧ t.padIndex = s.padIndex

/-- The state after reset meets the invariants R31 (a) to (c) and the canonical form of memory. -/
def Obligations.ResetStateMeetsInvariants : Prop :=
  ConfigInvariant State.reset ∧ State.reset.mem.wf = true

/-- Every step keeps R31 (a), (b), (c), from every state that has them. -/
def Obligations.StepKeepsConfigInvariant : Prop :=
  ∀ s t : State, ConfigInvariant s → step s = .next t → ConfigInvariant t

/-- Every step keeps memory in its canonical form (the model's own, log entry 6). -/
def Obligations.StepKeepsMemoryCanonical : Prop :=
  ∀ s t : State, s.mem.wf = true → step s = .next t → t.mem.wf = true

/-- Two memories in the canonical form that read alike at all 65536 addresses are the same data (log entry 6). -/
def Obligations.CanonicalMemoriesReadingAlikeAreEqual : Prop :=
  ∀ m n : Memory, m.wf = true → n.wf = true →
    (∀ a : Address, Memory.read m a.toNat = Memory.read n a.toNat) → m = n

/-- R31 (a), (b), (c) in every state reachable from a reset of any machine, with any draw, by any moves of the host. -/
def Obligations.StatesReachableFromResetMeetConfigInvariant : Prop :=
  ∀ (s : State) (d : ResetDraw) (n : Nat) (t : State),
    Host.Core.run core n (s.resetBlock d) = .next t → ConfigInvariant t

/-- R31 (d), R168: CFGD, BOUND and ILL never go from 1 to 0 except by reset. -/
def Obligations.FlagsFallOnlyByReset : Prop :=
  ∀ s t : State, ¬ HostResets s → step s = .next t →
    (s.status.cfgd = true → t.status.cfgd = true) ∧
    (s.status.bound = true → t.status.bound = true) ∧
    (s.status.ill = true → t.status.ill = true)

/-- R28: once both halves are in 0 to 65520 they stay so under every command, and ADRST and every ROW that is not refused
bring them there from any values. -/
def Obligations.AdlerPairStaysReduced : Prop :=
  (∀ (i : Instr) (s t : State), AdlerReduced s → exec i s = .next t → AdlerReduced t) ∧
  (∀ s t : State, exec .adrst s = .next t → AdlerReduced t) ∧
  (∀ s t : State, ¬ RefusalHolds .row s → exec .row s = .next t → AdlerReduced t)

/-- R79, R131: a step with a command word on the port executes that word after it left the port, and nothing else is added:
a word that decodes is the command's own meaning, and an illegal word, whatever its cause, is the command error. (That the
port is the head of the host's moves is the model's choice, log entry 1.) -/
def Obligations.StepRunsTheDecodedCommand : Prop :=
  ∀ (s : State) (cw : CommandWord) (rest : List HostAction), s.host = .issue cw :: rest →
    step s = runCommand cw { s with host := rest } ∧
    (∀ i : Instr, decode cw = .ok i → step s = exec i { s with host := rest }) ∧
    (IllegalWord cw → step s = .next { s with
      host := rest, status := { s.status with ill := true }, ret := 0, received := s.responses 0 })

/-- R174, R152: with no move of the host left the block is idle and keeps its whole state (the model's empty host list,
log entry 1). -/
def Obligations.IdleStepKeepsTheState : Prop :=
  ∀ s : State, s.host = [] → step s = .next s

/-- R140, R59: a store of the host's own between commands changes that cell alone, a load nothing but what the host got.
(The host's list and its record are the model's, log entries 1 and 8.) -/
def Obligations.HostStoresAndLoadsBetweenCommands : Prop :=
  (∀ (s : State) (a : Address) (v : Byte) (rest : List HostAction), s.host = .store a v :: rest → s.mem.wf = true →
    ∃ t, step s = .next t ∧ t.memRead a = v ∧ (∀ c, c ≠ a → t.memRead c = s.memRead c) ∧
      t = { s with host := rest, mem := t.mem }) ∧
  (∀ (s : State) (a : Address) (rest : List HostAction), s.host = .load a :: rest →
    step s = .next { s with host := rest, received := .loaded a (s.memRead a) :: s.received })

/-! Command words. -/

/-- Decoding an encoded command gives the command back, every operand at every value its field admits (R72, R73). -/
def Obligations.DecodeOfEncodeIsTheCommand : Prop :=
  ∀ i : Instr, decode (encode i) = .ok i

/-- A word that decodes is the encoding of what it decodes to: no bit of it is dropped (R72, R76). -/
def Obligations.EncodeOfDecodeIsTheWord : Prop :=
  ∀ (cw : CommandWord) (i : Instr), decode cw = .ok i → encode i = cw

/-- R77: a word is illegal exactly in cases (a) to (g); every illegal word is a command error and nothing else, and every
other word is exactly one legal command. -/
def Obligations.IllegalWordsAreCommandErrors : Prop :=
  ∀ cw : CommandWord,
    (IllegalWord cw → ∀ s : State, runCommand cw s =
      .next { s with status := { s.status with ill := true }, ret := 0, received := s.responses 0 }) ∧
    (¬ IllegalWord cw → ∃ i : Instr, (∀ s, runCommand cw s = exec i s) ∧ i.wellFormed = true ∧ encode i = cw ∧
      ∀ j : Instr, encode j = cw → j = i)

/-- R79, R162: which cause an illegal word has, tested in the order opcode, reserved field, operand; the three causes have
one effect, that of R161, and a word without a cause is executed. -/
def Obligations.CausesAreTestedInOrder : Prop :=
  ∀ cw : CommandWord,
    (decodeLegal cw = .error .badOpcode ↔ UnassignedOpcode cw) ∧
    (decodeLegal cw = .error .reservedNonzero ↔ ReservedFieldNonzero cw) ∧
    (decodeLegal cw = .error .badOperand ↔ ¬ ReservedFieldNonzero cw ∧ UnsupportedOperand cw) ∧
    ∀ s : State,
      (∀ c, decodeLegal cw = .error c → runCommand cw s =
        .next { s with status := { s.status with ill := true }, ret := 0, received := s.responses 0 }) ∧
      (∀ i, decodeLegal cw = .ok i → runCommand cw s = exec i s)

/-- R74: a word has the encoding of a command exactly when `CW & mask = match` for the command's row, and of one row at
most. -/
def Obligations.DecodeFollowsTheOpcodeMap : Prop :=
  ∀ cw : CommandWord,
    (∀ i, decode cw = .ok i → ∀ r ∈ opcodeTable, (cw &&& r.mask = r.pattern ↔ r = opcodeRow i)) ∧
    ((∃ i, decode cw = .ok i) ↔ ∃ r ∈ opcodeTable, cw &&& r.mask = r.pattern)

/-- R82: the nine worked encodings. -/
def Obligations.WorkedEncodings : Prop :=
  decode 0x0101000004 = .ok (.crc32 0x0100 4) ∧ decode 0x0200000000 = .ok .crcst ∧
  decode 0x1000000000 = .ok .adrst ∧ decode 0x1103000009 = .ok (.adupd 0x0300 9) ∧
  decode 0x1200000000 = .ok .adst ∧ decode 0x2002030002 = .ok (.cfg 3 2 2) ∧
  decode 0x2110002000 = .ok (.bind 0x1000 0x2000) ∧ decode 0x2200000000 = .ok .row ∧
  decode 0x3000030000 = .ok (.rd 3)

/-! Every command. -/

/-- R160, R164, R71: a command ends in exactly one of three ways, a command error, a refusal, or completion with the
response of R71's table; RET and the response word are the same value, given once. For a launch that admits every access
(R56). (The CRC's constants, and `b` as the high half of the Adler word that ADUPD and RD 3 respond with, are the spec's
general knowledge, 93_implementation_defined.md G1, G2, G4; log entry 10.) -/
def Obligations.EveryCommandEndsInOneOfThreeWays : Prop :=
  ∀ (cw : CommandWord) (s : State), AdmitsEverything s →
    (IllegalWord cw → ∃ t, runCommand cw s = .next t ∧ t.ret = 0 ∧ t.received = s.responses 0 ∧ t.status.ill = true) ∧
    (∀ i : Instr, i.wellFormed = true → encode i = cw → RefusalHolds i s →
      runCommand cw s = .next { s with ret := 0, received := s.responses 0 }) ∧
    (∀ i : Instr, i.wellFormed = true → encode i = cw → ¬ RefusalHolds i s →
      ∃ t, runCommand cw s = .next t ∧ t.received = s.responses t.ret ∧ t.status.ill = s.status.ill ∧
        match i with
        | .crc32 addr len => t.ret = crcOf (s.buffer addr len.toNat) ∧ t.crcr = t.ret
        | .crcst => t.ret = 4
        | .adrst => t.ret = 1
        | .adupd _ _ => t.ret = t.adb ++ t.ada
        | .adst => t.ret = 4
        | .cfg _ _ _ => t.ret = 1
        | .bind _ _ => t.ret = 1
        | .row => t.ret.toNat = 6 + rowBytesOf s.width.toNat s.bpp.toNat
        | .rd reg => s.readIndex reg = some t.ret)

/-- R164, R163: CRCST and ADST with BOUND = 0, and ROW with CFGD = 0, BOUND = 0 or DONE = 1, are refused: RET and the
response 0, and no flag, other register or memory cell changes (whatever the launch admits). -/
def Obligations.RefusalsChangeRetAlone : Prop :=
  ∀ s : State,
    (s.status.bound = false → exec .crcst s = .next { s with ret := 0, received := s.responses 0 }) ∧
    (s.status.bound = false → exec .adst s = .next { s with ret := 0, received := s.responses 0 }) ∧
    (s.status.cfgd = false ∨ s.status.bound = false ∨ s.status.done = true →
      exec .row s = .next { s with ret := 0, received := s.responses 0 })

/-- R140, R54: no command touches a memory cell outside those its rule names: outside the cells from PDST that CRCST,
ADST and ROW write, every cell reads as before, after every command. -/
def Obligations.OnlyTheNamedCellsAreWritten : Prop :=
  ∀ (i : Instr) (s t : State), exec i s = .next t →
    ∀ c : Address, ¬ InSpan s.pdst (bytesWritten i s) c → t.memRead c = s.memRead c

/-- R21 to R23, R26, R28: which commands write which register; every command writes RET and no other may. -/
def Obligations.RegistersAreWrittenByTheNamedCommandsOnly : Prop :=
  ∀ (i : Instr) (s t : State), exec i s = .next t →
    (t.psrc ≠ s.psrc → (∃ a b, i = .bind a b) ∨ i = .row) ∧
    (t.pdst ≠ s.pdst → (∃ a b, i = .bind a b) ∨ i = .row ∨ i = .adst ∨ i = .crcst) ∧
    (t.crcr ≠ s.crcr → ∃ a n, i = .crc32 a n) ∧
    (t.width ≠ s.width ∨ t.height ≠ s.height ∨ t.bpp ≠ s.bpp → ∃ w h d, i = .cfg w h d) ∧
    (t.rowcnt ≠ s.rowcnt → (∃ w h d, i = .cfg w h d) ∨ i = .row) ∧
    (t.ada ≠ s.ada ∨ t.adb ≠ s.adb → i = .adrst ∨ (∃ a n, i = .adupd a n) ∨ i = .row) ∧
    (t.status.cfgd ≠ s.status.cfgd → ∃ w h d, i = .cfg w h d) ∧
    (t.status.bound ≠ s.status.bound → ∃ a b, i = .bind a b) ∧
    (t.status.done ≠ s.status.done → (∃ w h d, i = .cfg w h d) ∨ i = .row) ∧
    (t.status.ill ≠ s.status.ill → i.wellFormed = false) ∧
    t.host = s.host ∧ t.memAdmit = s.memAdmit ∧ t.resetIndex = s.resetIndex ∧
    (t.padIndex ≠ s.padIndex → i = .row)

/-- R56 (MEM_ADMIT as the model takes it, log entry 5): a command faults exactly when it is legal, not refused, and one of
its accesses is not admitted; no command is refused by the model. -/
def Obligations.CommandsFaultExactlyOnAccessesNotAdmitted : Prop :=
  ∀ (i : Instr) (s : State),
    (exec i s = .fault .accessNotAdmitted ↔
      i.wellFormed = true ∧ ¬ RefusalHolds i s ∧ ¬ AccessesAdmitted i s) ∧
    (exec i s = .fault .accessNotAdmitted ∨ ∃ t, exec i s = .next t)

/-- R51, R55: a byte written is read back from its cell, and every other cell reads as before. -/
def Obligations.MemoryReadsTheLatestWrite : Prop :=
  ∀ (s : State) (a c : Address) (v : Byte), s.mem.wf = true →
    (s.memWrite a v).memRead c = if c = a then v else s.memRead c

/-! The CRC-32 engine. -/

/-- R92: CRC32 completes for every address and length; CRCR and RET get the CRC-32 of the buffer's bytes at ascending
addresses modulo 65536, and nothing else changes. -/
def Obligations.Crc32GivesTheCrcOfTheBuffer : Prop :=
  ∀ (s : State) (addr len : Half), AccessesAdmitted (.crc32 addr len) s →
    let c := ((List.range len.toNat).map fun i => s.memRead (addr + BitVec.ofNat 16 i)).foldl
      (fun (c : Word32) (d : Byte) => crcEntry ((c ^^^ d.setWidth 32).extractLsb' 0 8) ^^^ (c >>> 8)) 0xFFFFFFFF
    exec (.crc32 addr len) s =
      .next { s with crcr := c ^^^ 0xFFFFFFFF, ret := c ^^^ 0xFFFFFFFF, received := s.responses (c ^^^ 0xFFFFFFFF) }

/-- R91: every entry of the listed table is what R91's computation leaves. -/
def Obligations.CrcTableIsTheReflectedTable : Prop :=
  crcTable.length = 256 ∧ ∀ n : Byte, crcEntry n = crcBitSteps 8 (n.setWidth 32)

/-- R91 and R92: the table-driven engine is the bit-serial reflected CRC-32 of polynomial 0xEDB88320, on every byte
sequence. (Polynomial and per-byte step are the spec's general knowledge, 93_implementation_defined.md G1, G2; log
entry 10.) -/
def Obligations.TableDrivenCrcIsBitSerialCrc : Prop :=
  ∀ bytes : List Byte, crcOf bytes = crcBitSerial bytes

/-- R95: the check values (the spec's general knowledge, 93_implementation_defined.md G1 to G3; log entry 10). -/
def Obligations.CrcCheckValues : Prop :=
  crcOf [0x31, 0x32, 0x33, 0x34, 0x35, 0x36, 0x37, 0x38, 0x39] = 0xCBF43926 ∧ crcOf [0x00] = 0xD202EF8D ∧
  crcOf [0x61] = 0xE8B7BE43 ∧ crcOf [0xFF, 0xFF, 0xFF, 0xFF] = 0xFFFFFFFF ∧
  crcOf [0x00, 0x00, 0x00, 0x00] = 0x2144DF1C

/-- R94 (b), R92: the result depends on the buffer's bytes alone: not on where they stand, not on any register, not on an
earlier CRC32. -/
def Obligations.CrcDependsOnTheBytesAlone : Prop :=
  ∀ (s u : State) (a b len : Half), AccessesAdmitted (.crc32 a len) s → AccessesAdmitted (.crc32 b len) u →
    (∀ i < len.toNat, s.memRead (a + BitVec.ofNat 16 i) = u.memRead (b + BitVec.ofNat 16 i)) →
    ∃ t v, exec (.crc32 a len) s = .next t ∧ exec (.crc32 b len) u = .next v ∧ t.ret = v.ret ∧ t.crcr = v.crcr

/-- R93: CRCST with BOUND = 1 stores CRCR big-endian at PDST, advances PDST by 4, responds 4, and changes nothing else; with BOUND = 0
it is refused. -/
def Obligations.CrcstStoresCrcrBigEndian : Prop :=
  (∀ s : State, s.mem.wf = true → s.status.bound = true → AccessesAdmitted .crcst s →
    ∃ t, exec .crcst s = .next t ∧
      t.memRead s.pdst = s.crcr.extractLsb 31 24 ∧ t.memRead (s.pdst + 1) = s.crcr.extractLsb 23 16 ∧
      t.memRead (s.pdst + 2) = s.crcr.extractLsb 15 8 ∧ t.memRead (s.pdst + 3) = s.crcr.extractLsb 7 0 ∧
      (∀ c, ¬ InSpan s.pdst 4 c → t.memRead c = s.memRead c) ∧
      t = { s with mem := t.mem, pdst := s.pdst + 4, ret := 4, received := s.responses 4 }) ∧
  (∀ s : State, s.status.bound = false → exec .crcst s = .next { s with ret := 0, received := s.responses 0 })

/-- R94 (d): CRC32 over a chunk's tag and payload, then CRCST with PDST directly after it, leaves the chunk as it was and
its CRC-32 big-endian in the four bytes after it. -/
def Obligations.ChunkIsFollowedByItsCrc : Prop :=
  ∀ (s : State) (a len : Half), s.mem.wf = true → AdmitsEverything s → s.status.bound = true →
    s.pdst = a + len → len.toNat + 4 ≤ 65536 →
    ∃ t u, exec (.crc32 a len) s = .next t ∧ exec .crcst t = .next u ∧
      u.buffer a len.toNat = s.buffer a len.toNat ∧
      u.buffer (a + len) 4 = bigEndian (crcOf (s.buffer a len.toNat)) ∧ u.pdst = a + len + 4

/-! The Adler-32 accumulator. -/

/-- R101: ADRST completes in every state. -/
def Obligations.AdrstResetsThePair : Prop :=
  ∀ s : State, exec .adrst s = .next { s with ada := 1, adb := 0, ret := 1, received := s.responses 1 }

/-- R102: one update, for every pair a register can hold, reduced or not; it changes the pair and nothing else. -/
def Obligations.AdlerByteUpdatesThePair : Prop :=
  ∀ (s : State) (v : Byte),
    (s.adlerByte v).ada.toNat = (s.ada.toNat + v.toNat) % 65521 ∧
    (s.adlerByte v).adb.toNat = (s.adb.toNat + (s.ada.toNat + v.toNat) % 65521) % 65521 ∧
    s.adlerByte v = { s with ada := (s.adlerByte v).ada, adb := (s.adlerByte v).adb }

/-- R103: ADUPD completes for every address and length; the pair gets one update of R102 per byte in order, RET the Adler
word, and nothing else changes. (`b` as the word's high half is the spec's general knowledge, R105,
93_implementation_defined.md G4; log entry 10.) -/
def Obligations.AdupdUpdatesThePairOverTheBuffer : Prop :=
  ∀ (s : State) (addr len : Half), AccessesAdmitted (.adupd addr len) s →
    let p := adlerPairRun (s.ada.toNat, s.adb.toNat)
      ((List.range len.toNat).map fun i => s.memRead (addr + BitVec.ofNat 16 i))
    ∃ t, exec (.adupd addr len) s = .next t ∧ t.ada.toNat = p.1 ∧ t.adb.toNat = p.2 ∧
      t.ret.toNat = p.2 * 65536 + p.1 ∧
      t = { s with ada := t.ada, adb := t.adb, ret := t.ret, received := s.responses t.ret }

/-- R106 (a): the batched form, taken once at the end, of ADRST and one ADUPD. -/
def Obligations.AdlerIsTheDeferredModuloForm : Prop :=
  ∀ (s : State) (addr len : Half), AccessesAdmitted (.adupd addr len) s →
    ∃ t u, exec .adrst s = .next t ∧ exec (.adupd addr len) t = .next u ∧
      u.ada.toNat = (1 + byteSum (s.buffer addr len.toNat)) % 65521 ∧
      u.adb.toNat = (len.toNat + weightedByteSum (s.buffer addr len.toNat)) % 65521

/-- R103's corner case: ADUPD over `m1` then over `m2` directly after it leaves the pair, and the response, of one ADUPD
over both. -/
def Obligations.AdupdContinuesTheChecksum : Prop :=
  ∀ (s : State) (addr m n : Half), m.toNat + n.toNat ≤ 65535 → AccessesAdmitted (.adupd addr (m + n)) s →
    ∃ t u v, exec (.adupd addr m) s = .next t ∧ exec (.adupd (addr + m) n) t = .next u ∧
      exec (.adupd addr (m + n)) s = .next v ∧ u.ada = v.ada ∧ u.adb = v.adb ∧ u.ret = v.ret

/-- R106 (c): of two machines with the same pair whose buffers differ by an exchange of the bytes at positions `i` and
`i + k`, ADUPD leaves the same ADA, and ADBs that differ by `k` times the bytes' difference modulo 65521: different ones
where the bytes differ and `k` is no multiple of 65521. -/
def Obligations.AdlerSeesAnExchangeOfTwoBytes : Prop :=
  ∀ (s u : State) (addr len : Half) (i k : Nat), i + k < len.toNat →
    AccessesAdmitted (.adupd addr len) s → AccessesAdmitted (.adupd addr len) u → u.ada = s.ada → u.adb = s.adb →
    let cell := fun j : Nat => addr + BitVec.ofNat 16 j
    u.memRead (cell i) = s.memRead (cell (i + k)) → u.memRead (cell (i + k)) = s.memRead (cell i) →
    (∀ j < len.toNat, j ≠ i → j ≠ i + k → u.memRead (cell j) = s.memRead (cell j)) →
    ∃ t v, exec (.adupd addr len) s = .next t ∧ exec (.adupd addr len) u = .next v ∧ v.ada = t.ada ∧
      (v.adb.toNat + k * (s.memRead (cell i)).toNat) % 65521 =
        (t.adb.toNat + k * (s.memRead (cell (i + k))).toNat) % 65521 ∧
      (s.memRead (cell i) ≠ s.memRead (cell (i + k)) → ¬ 65521 ∣ k → v.adb ≠ t.adb)

/-- R104: ADST with BOUND = 1 stores the Adler word big-endian, the `b` half first, advances PDST by 4, responds 4, and
changes nothing else; with BOUND = 0 it is refused. (`b` as the high half is the spec's general knowledge, R105,
93_implementation_defined.md G4; log entry 10.) -/
def Obligations.AdstStoresTheAdlerWord : Prop :=
  (∀ s : State, s.mem.wf = true → s.status.bound = true → AccessesAdmitted .adst s →
    ∃ t, exec .adst s = .next t ∧
      t.memRead s.pdst = s.adb.extractLsb 15 8 ∧ t.memRead (s.pdst + 1) = s.adb.extractLsb 7 0 ∧
      t.memRead (s.pdst + 2) = s.ada.extractLsb 15 8 ∧ t.memRead (s.pdst + 3) = s.ada.extractLsb 7 0 ∧
      (∀ c, ¬ InSpan s.pdst 4 c → t.memRead c = s.memRead c) ∧
      t = { s with mem := t.mem, pdst := s.pdst + 4, ret := 4, received := s.responses 4 }) ∧
  (∀ s : State, s.status.bound = false → exec .adst s = .next { s with ret := 0, received := s.responses 0 })

/-- R107: the check values, as the responses of ADRST and ADUPD over a buffer that holds the bytes. (`b` as the word's high
half, and the values, are the spec's general knowledge, 93_implementation_defined.md G4, G5; log entry 10.) -/
def Obligations.AdlerCheckValues : Prop :=
  ∀ (s : State) (addr : Half), AdmitsEverything s →
    let checks := fun (bytes : List Byte) (w : Word32) => s.buffer addr bytes.length = bytes →
      ∃ t u, exec .adrst s = .next t ∧ exec (.adupd addr (BitVec.ofNat 16 bytes.length)) t = .next u ∧ u.ret = w
    checks [0x57, 0x69, 0x6B, 0x69, 0x70, 0x65, 0x64, 0x69, 0x61] 0x11E60398 ∧
    checks [0x00] 0x00010001 ∧ checks [0x61] 0x00620062 ∧ checks [0x61, 0x62, 0x63] 0x024D0127

/-! The row serializer. -/

/-- R111: a legal CFG completes and writes WIDTH, HEIGHT, BPP, ROWCNT, CFGD and DONE; one with an unsupported operand, or
a CFG word with a reserved bit set, is a command error, and the previous configuration stays. -/
def Obligations.CfgSetsOrRejectsTheConfiguration : Prop :=
  ∀ (s : State) (w h : BitVec 8) (d : BitVec 4),
    (1 ≤ w.toNat ∧ 1 ≤ h.toNat ∧ d.toNat ∈ [1, 2, 4, 8] → exec (.cfg w h d) s = .next { s with
      width := w, height := h, bpp := d, rowcnt := 0, status := { s.status with cfgd := true, done := false },
      ret := 1, received := s.responses 1 }) ∧
    (w.toNat = 0 ∨ h.toNat = 0 ∨ d.toNat ∉ [1, 2, 4, 8] → exec (.cfg w h d) s = .next { s with
      status := { s.status with ill := true }, ret := 0, received := s.responses 0 }) ∧
    (∀ cw : CommandWord, opNat cw = 0x20 → bNat cw / 16 ≠ 0 → runCommand cw s = .next { s with
      status := { s.status with ill := true }, ret := 0, received := s.responses 0 })

/-- R112: BIND completes in every state for every pair of addresses. -/
def Obligations.BindSetsTheCursors : Prop :=
  ∀ (s : State) (src dst : Half), exec (.bind src dst) s = .next { s with
    psrc := src, pdst := dst, status := { s.status with bound := true }, ret := 1, received := s.responses 1 }

/-- R115: a ROW with CFGD = 1, BOUND = 1, DONE = 0 completes: the cursors advance by the pixels read and the bytes
written, ROWCNT by 1, DONE is set by the last row and only by it, the response is `6 + rb`, one PAD draw is consumed,
memory is written only from PDST to PDST + 5 + rb, and no other register changes but the Adler pair. -/
def Obligations.RowAdvancesTheRegisters : Prop :=
  ∀ s : State, ConfigInvariant s → s.status.cfgd = true → s.status.bound = true → s.status.done = false →
    AccessesAdmitted .row s →
    let rb := rowBytesOf s.width.toNat s.bpp.toNat
    ∃ t, exec .row s = .next t ∧
      t.psrc.toNat = (s.psrc.toNat + s.width.toNat) % 65536 ∧
      t.pdst.toNat = (s.pdst.toNat + (6 + rb)) % 65536 ∧
      t.rowcnt.toNat = s.rowcnt.toNat + 1 ∧
      (t.status.done = true ↔ s.rowcnt.toNat + 1 = s.height.toNat) ∧
      t.ret.toNat = 6 + rb ∧ t.received = s.responses t.ret ∧ t.padIndex = s.padIndex + 1 ∧
      (∀ c, ¬ InSpan s.pdst (6 + rb) c → t.memRead c = s.memRead c) ∧
      t = { s with psrc := t.psrc, pdst := t.pdst, rowcnt := t.rowcnt, status := { s.status with done := t.status.done },
                   ret := t.ret, received := t.received, padIndex := t.padIndex, mem := t.mem, ada := t.ada,
                   adb := t.adb }

/-- R113, R115 steps a and b: the framing-block header and the filter byte (whose byte values are the spec's general
knowledge, 93_implementation_defined.md G6 to G8; log entry 10). -/
def Obligations.RowWritesHeaderAndFilterByte : Prop :=
  ∀ s t : State, s.mem.wf = true → ¬ RefusalHolds .row s → exec .row s = .next t →
    let blen := rowBytesOf s.width.toNat s.bpp.toNat + 1
    (t.memRead s.pdst).toNat = (if s.rowcnt.toNat + 1 = s.height.toNat then 1 else 0) ∧
    (t.memRead (s.pdst + 1)).toNat = blen % 256 ∧ (t.memRead (s.pdst + 2)).toNat = blen / 256 ∧
    (t.memRead (s.pdst + 3)).toNat = (65535 - blen) % 256 ∧ (t.memRead (s.pdst + 4)).toNat = (65535 - blen) / 256 ∧
    (t.memRead (s.pdst + 5)).toNat = 0

/-- R114, R58: pixel `i = j*ppb + k` of the row stands in field `k` of packed byte `j`, masked, the leftmost in the highest
bits. A pixel whose cell the row has already written, at an offset below 6 + j from PDST, is read as written; every other
pixel as memory held it before the ROW. -/
def Obligations.RowPacksThePixels : Prop :=
  ∀ s t : State, s.mem.wf = true → ConfigInvariant s → ¬ RefusalHolds .row s → exec .row s = .next t →
    ∀ i j k : Nat, i < s.width.toNat → k < 8 / s.bpp.toNat → i = j * (8 / s.bpp.toNat) + k →
      let cell := s.psrc + BitVec.ofNat 16 i
      packedField (t.memRead (s.pdst + BitVec.ofNat 16 (6 + j))) s.bpp.toNat k =
        (if InSpan s.pdst (6 + j) cell then t.memRead cell else s.memRead cell).toNat % 2 ^ s.bpp.toNat

/-- R116: every place of the last packed byte beyond WIDTH holds the bits of SOME 8-bit draw at that place, one draw for
the whole ROW. (That the draw is `Config.pad` of a counter is the model's choice, log entry 4.) -/
def Obligations.RowPaddingIsADraw : Prop :=
  ∀ s t : State, s.mem.wf = true → ConfigInvariant s → ¬ RefusalHolds .row s → exec .row s = .next t →
    ∀ j k : Nat, j < rowBytesOf s.width.toNat s.bpp.toNat → k < 8 / s.bpp.toNat →
      s.width.toNat ≤ j * (8 / s.bpp.toNat) + k →
      packedField (t.memRead (s.pdst + BitVec.ofNat 16 (6 + j))) s.bpp.toNat k =
        packedField (Config.pad s.padIndex) s.bpp.toNat k

/-- R115 steps b to d, R116: the Adler pair runs over exactly the filter byte and the packed bytes as they stand in memory
after the ROW, padding included, and not over the header; from (1, 0) on the first row of an image, else from the pair as
it was. -/
def Obligations.RowChecksumsTheBytesEmitted : Prop :=
  ∀ s t : State, s.mem.wf = true → ¬ RefusalHolds .row s → exec .row s = .next t →
    t.adlerPair = adlerPairRun (if s.rowcnt = 0 then (1, 0) else s.adlerPair)
      (t.checksummedBytes s.pdst (rowBytesOf s.width.toNat s.bpp.toNat))

/-- R116: the draw reaches nothing but the padding bits and the Adler pair. Two machines that differ only in the draw write
the same bytes everywhere, but for the last packed byte, whose defined pixels are the same, and leave the same registers
but for the pair. -/
def Obligations.PaddingDrawReachesOnlyThePadding : Prop :=
  ∀ (s t u : State) (n : Nat), s.mem.wf = true → ConfigInvariant s → ¬ RefusalHolds .row s →
    exec .row s = .next t → exec .row { s with padIndex := n } = .next u →
    let rb := rowBytesOf s.width.toNat s.bpp.toNat
    (∀ c, c ≠ s.pdst + BitVec.ofNat 16 (5 + rb) → t.memRead c = u.memRead c) ∧
    (∀ k, (rb - 1) * (8 / s.bpp.toNat) + k < s.width.toNat → k < 8 / s.bpp.toNat →
      packedField (t.memRead (s.pdst + BitVec.ofNat 16 (5 + rb))) s.bpp.toNat k =
        packedField (u.memRead (s.pdst + BitVec.ofNat 16 (5 + rb))) s.bpp.toNat k) ∧
    { t with mem := [], ada := 0, adb := 0, padIndex := 0 } = { u with mem := [], ada := 0, adb := 0, padIndex := 0 }

/-- R117: a ROW that is not refused writes exactly `6 + rb` bytes and advances PDST by that much; HEIGHT of them, and the
ADST after them, respond `HEIGHT * (6 + rb) + 4` in all, whatever the pixels, and DONE is set. -/
def Obligations.ImageSizeDoesNotDependOnThePixels : Prop :=
  ∀ s : State, ConfigInvariant s → AdmitsEverything s → s.status.cfgd = true → s.status.bound = true → s.rowcnt = 0 →
    let rb := rowBytesOf s.width.toNat s.bpp.toNat
    ∃ t bytes total u, rowRun s.height.toNat s = some (t, bytes, total) ∧ exec .adst t = .next u ∧
      total + u.ret.toNat = s.height.toNat * (6 + rb) + 4 ∧
      u.pdst.toNat = (s.pdst.toNat + (s.height.toNat * (6 + rb) + 4)) % 65536 ∧ u.status.done = true

/-- R118, the stream checksum law: from CFGD = 1, BOUND = 1, ROWCNT = 0, after HEIGHT ROW commands with no other command
between them, the Adler pair is the Adler-32 of the filter byte and packed bytes of each row in order, as written, a
sequence of `HEIGHT * (1 + rb)` bytes; an ADST issued next writes that word, big-endian, at PDST. (`b` as the word's high
half is the spec's general knowledge, R105, 93_implementation_defined.md G4; log entry 10.) -/
def Obligations.StreamTrailerIsTheAdlerOfTheRows : Prop :=
  ∀ s : State, s.mem.wf = true → ConfigInvariant s → AdmitsEverything s → s.status.cfgd = true →
    s.status.bound = true → s.rowcnt = 0 →
    ∃ t bytes total u, rowRun s.height.toNat s = some (t, bytes, total) ∧
      bytes.length = s.height.toNat * (1 + rowBytesOf s.width.toNat s.bpp.toNat) ∧
      t.adlerPair = adlerPairRun (1, 0) bytes ∧
      exec .adst t = .next u ∧ u.buffer t.pdst 4 = bigEndian (t.adb ++ t.ada)

/-! Register access. -/

/-- R130, R27: RD of index 0 to 8 completes with the register's 32-bit value as it stood before the RD, and changes RET
alone; an index above 8, or an RD word with B not 0, is a command error. (Index 3 as
`ADB * 65536 + ADA`, `b` the high half, is the spec's general knowledge, 93_implementation_defined.md G4; log entry 10.) -/
def Obligations.RdReadsTheRegisterByIndex : Prop :=
  ∀ s : State,
    let reads := fun (i v : Nat) =>
      ∃ w : Word32, w.toNat = v ∧ exec (.rd (BitVec.ofNat 16 i)) s = .next { s with ret := w, received := s.responses w }
    reads 0 (s.status.cfgd.toNat + 2 * s.status.bound.toNat + 4 * s.status.done.toNat + 8 * s.status.ill.toNat) ∧
    reads 1 s.ret.toNat ∧ reads 2 s.crcr.toNat ∧ reads 3 (s.adb.toNat * 65536 + s.ada.toNat) ∧
    reads 4 s.psrc.toNat ∧ reads 5 s.pdst.toNat ∧ reads 6 (s.height.toNat * 256 + s.width.toNat) ∧
    reads 7 s.bpp.toNat ∧ reads 8 s.rowcnt.toNat ∧
    (∀ reg : Half, 8 < reg.toNat → exec (.rd reg) s = .next { s with
      status := { s.status with ill := true }, ret := 0, received := s.responses 0 }) ∧
    ∀ cw : CommandWord, opNat cw = 0x30 → bNat cw ≠ 0 → runCommand cw s = .next { s with
      status := { s.status with ill := true }, ret := 0, received := s.responses 0 }

/-! The assembler. -/

/-- R80, R81, R82: the spellings of the worked encodings, text to words, and the two pseudo-instructions. -/
def Obligations.AssemblerSpellsTheWorkedEncodings : Prop :=
  (assembleText "CRC32 0x0100, 4\nCRCST\nADRST\nADUPD 0x0300, 9 ; nine bytes\nADST".toList).toOption =
    some [0x0101000004, 0x0200000000, 0x1000000000, 0x1103000009, 0x1200000000] ∧
  (assembleText "CFG 3, 2, 2\nBIND 0x1000, 0x2000\nROW\nRD ADLER".toList).toOption =
    some [0x2002030002, 0x2110002000, 0x2200000000, 0x3000030000] ∧
  (assembleText "RD STATUS\nRD RET\nRD CRCR\nRD PSRC\nRD PDST\nRD DIMS\nRD BPP\nRD ROWCNT\nRD 8".toList).toOption =
    some [0x3000000000, 0x3000010000, 0x3000020000, 0x3000040000, 0x3000050000, 0x3000060000, 0x3000070000,
      0x3000080000, 0x3000080000] ∧
  (assembleText "ROWS 3".toList).toOption = some [0x2200000000, 0x2200000000, 0x2200000000] ∧
  (assembleText "ADLER32 0x0300, 9".toList).toOption = some [0x1000000000, 0x1103000009] ∧
  (assembleText "CFG 0, 2, 3".toList).toOption = some [0x2002000003] ∧
  (assembleText "CRC32 65536, 4".toList).toOption = none ∧ (assembleText "CFG 3, 2, 16".toList).toOption = none

/-- R80: a number is decimal, or hexadecimal after `0x`: the digits of every number are read as that number. -/
def Obligations.AssemblerReadsDecimalAndHexadecimal : Prop :=
  ∀ n : Nat, parseNumber (Nat.toDigits 10 n) = some n ∧ parseNumber ('0' :: 'x' :: Nat.toDigits 16 n) = some n

/-- R80, R81: operands that fit their fields assemble to the command with those operands, values that fit but are illegal
for the block included (width 0, depth 3), and an operand above its field is refused. Of a line cut into its mnemonic (by
its place in `mnemonics`) and its operand texts. -/
def Obligations.AssemblerTakesOperandsThatFit : Prop :=
  ∀ (a b c : List Char) (x y z : Nat), parseNumber a = some x → parseNumber b = some y → parseNumber c = some z →
    (x ≤ 65535 ∧ y ≤ 65535 →
      asmCommand 0 [a, b] = .ok [.crc32 (BitVec.ofNat 16 x) (BitVec.ofNat 16 y)] ∧
      asmCommand 3 [a, b] = .ok [.adupd (BitVec.ofNat 16 x) (BitVec.ofNat 16 y)] ∧
      asmCommand 6 [a, b] = .ok [.bind (BitVec.ofNat 16 x) (BitVec.ofNat 16 y)] ∧
      asmCommand 10 [a, b] = .ok [.adrst, .adupd (BitVec.ofNat 16 x) (BitVec.ofNat 16 y)]) ∧
    (65535 < x ∨ 65535 < y →
      asmCommand 0 [a, b] = .error .doesNotFit ∧ asmCommand 3 [a, b] = .error .doesNotFit ∧
      asmCommand 6 [a, b] = .error .doesNotFit ∧ asmCommand 10 [a, b] = .error .doesNotFit) ∧
    (x ≤ 255 ∧ y ≤ 255 ∧ z ≤ 15 →
      asmCommand 5 [a, b, c] = .ok [.cfg (BitVec.ofNat 8 x) (BitVec.ofNat 8 y) (BitVec.ofNat 4 z)]) ∧
    (255 < x ∨ 255 < y ∨ 15 < z → asmCommand 5 [a, b, c] = .error .doesNotFit) ∧
    (1 ≤ x ∧ x ≤ 255 → asmCommand 9 [a] = .ok (List.replicate x .row)) ∧
    (x = 0 ∨ 255 < x → asmCommand 9 [a] = .error .doesNotFit)
end

