-- ==== Sys2Proof/Laws/State.lean ====
section
/-! SUPPORT. One lemma per field of State and per update: what the update leaves in that field. -/

namespace Sys2Proof.Machine

variable (s : State)

/-! After `MemWrite`. -/

@[simp] theorem memWrite_psrc (a : Address) (v : Byte) : (s.memWrite a v).psrc = s.psrc := rfl
@[simp] theorem memWrite_pdst (a : Address) (v : Byte) : (s.memWrite a v).pdst = s.pdst := rfl
@[simp] theorem memWrite_ret (a : Address) (v : Byte) : (s.memWrite a v).ret = s.ret := rfl
@[simp] theorem memWrite_crcr (a : Address) (v : Byte) : (s.memWrite a v).crcr = s.crcr := rfl
@[simp] theorem memWrite_status (a : Address) (v : Byte) : (s.memWrite a v).status = s.status := rfl
@[simp] theorem memWrite_width (a : Address) (v : Byte) : (s.memWrite a v).width = s.width := rfl
@[simp] theorem memWrite_height (a : Address) (v : Byte) : (s.memWrite a v).height = s.height := rfl
@[simp] theorem memWrite_bpp (a : Address) (v : Byte) : (s.memWrite a v).bpp = s.bpp := rfl
@[simp] theorem memWrite_rowcnt (a : Address) (v : Byte) : (s.memWrite a v).rowcnt = s.rowcnt := rfl
@[simp] theorem memWrite_ada (a : Address) (v : Byte) : (s.memWrite a v).ada = s.ada := rfl
@[simp] theorem memWrite_adb (a : Address) (v : Byte) : (s.memWrite a v).adb = s.adb := rfl
@[simp] theorem memWrite_mem (a : Address) (v : Byte) : (s.memWrite a v).mem = s.mem.write a.toNat v := rfl
@[simp] theorem memWrite_host (a : Address) (v : Byte) : (s.memWrite a v).host = s.host := rfl
@[simp] theorem memWrite_received (a : Address) (v : Byte) : (s.memWrite a v).received = s.received := rfl
@[simp] theorem memWrite_memAdmit (a : Address) (v : Byte) : (s.memWrite a v).memAdmit = s.memAdmit := rfl
@[simp] theorem memWrite_padIndex (a : Address) (v : Byte) : (s.memWrite a v).padIndex = s.padIndex := rfl
@[simp] theorem memWrite_resetIndex (a : Address) (v : Byte) : (s.memWrite a v).resetIndex = s.resetIndex := rfl

/-! After `respond`. -/

@[simp] theorem respond_psrc (v : Word32) : (s.respond v).psrc = s.psrc := rfl
@[simp] theorem respond_pdst (v : Word32) : (s.respond v).pdst = s.pdst := rfl
@[simp] theorem respond_ret (v : Word32) : (s.respond v).ret = v := rfl
@[simp] theorem respond_crcr (v : Word32) : (s.respond v).crcr = s.crcr := rfl
@[simp] theorem respond_status (v : Word32) : (s.respond v).status = s.status := rfl
@[simp] theorem respond_width (v : Word32) : (s.respond v).width = s.width := rfl
@[simp] theorem respond_height (v : Word32) : (s.respond v).height = s.height := rfl
@[simp] theorem respond_bpp (v : Word32) : (s.respond v).bpp = s.bpp := rfl
@[simp] theorem respond_rowcnt (v : Word32) : (s.respond v).rowcnt = s.rowcnt := rfl
@[simp] theorem respond_ada (v : Word32) : (s.respond v).ada = s.ada := rfl
@[simp] theorem respond_adb (v : Word32) : (s.respond v).adb = s.adb := rfl
@[simp] theorem respond_mem (v : Word32) : (s.respond v).mem = s.mem := rfl
@[simp] theorem respond_host (v : Word32) : (s.respond v).host = s.host := rfl
@[simp] theorem respond_received (v : Word32) : (s.respond v).received = .response v :: s.received := rfl
@[simp] theorem respond_memAdmit (v : Word32) : (s.respond v).memAdmit = s.memAdmit := rfl
@[simp] theorem respond_padIndex (v : Word32) : (s.respond v).padIndex = s.padIndex := rfl
@[simp] theorem respond_resetIndex (v : Word32) : (s.respond v).resetIndex = s.resetIndex := rfl

/-! After `refuse`. -/

@[simp] theorem refuse_psrc : (s.refuse).psrc = s.psrc := rfl
@[simp] theorem refuse_pdst : (s.refuse).pdst = s.pdst := rfl
@[simp] theorem refuse_ret : (s.refuse).ret = 0 := rfl
@[simp] theorem refuse_crcr : (s.refuse).crcr = s.crcr := rfl
@[simp] theorem refuse_status : (s.refuse).status = s.status := rfl
@[simp] theorem refuse_width : (s.refuse).width = s.width := rfl
@[simp] theorem refuse_height : (s.refuse).height = s.height := rfl
@[simp] theorem refuse_bpp : (s.refuse).bpp = s.bpp := rfl
@[simp] theorem refuse_rowcnt : (s.refuse).rowcnt = s.rowcnt := rfl
@[simp] theorem refuse_ada : (s.refuse).ada = s.ada := rfl
@[simp] theorem refuse_adb : (s.refuse).adb = s.adb := rfl
@[simp] theorem refuse_mem : (s.refuse).mem = s.mem := rfl
@[simp] theorem refuse_host : (s.refuse).host = s.host := rfl
@[simp] theorem refuse_received : (s.refuse).received = .response 0 :: s.received := rfl
@[simp] theorem refuse_memAdmit : (s.refuse).memAdmit = s.memAdmit := rfl
@[simp] theorem refuse_padIndex : (s.refuse).padIndex = s.padIndex := rfl
@[simp] theorem refuse_resetIndex : (s.refuse).resetIndex = s.resetIndex := rfl

/-! After `raise CommandError`. -/

@[simp] theorem raiseCommandError_psrc (c : CommandErrorCause) : (s.raiseCommandError c).psrc = s.psrc := rfl
@[simp] theorem raiseCommandError_pdst (c : CommandErrorCause) : (s.raiseCommandError c).pdst = s.pdst := rfl
@[simp] theorem raiseCommandError_ret (c : CommandErrorCause) : (s.raiseCommandError c).ret = 0 := rfl
@[simp] theorem raiseCommandError_crcr (c : CommandErrorCause) : (s.raiseCommandError c).crcr = s.crcr := rfl
@[simp] theorem raiseCommandError_status (c : CommandErrorCause) : (s.raiseCommandError c).status = s.status.raiseIll := rfl
@[simp] theorem raiseCommandError_width (c : CommandErrorCause) : (s.raiseCommandError c).width = s.width := rfl
@[simp] theorem raiseCommandError_height (c : CommandErrorCause) : (s.raiseCommandError c).height = s.height := rfl
@[simp] theorem raiseCommandError_bpp (c : CommandErrorCause) : (s.raiseCommandError c).bpp = s.bpp := rfl
@[simp] theorem raiseCommandError_rowcnt (c : CommandErrorCause) : (s.raiseCommandError c).rowcnt = s.rowcnt := rfl
@[simp] theorem raiseCommandError_ada (c : CommandErrorCause) : (s.raiseCommandError c).ada = s.ada := rfl
@[simp] theorem raiseCommandError_adb (c : CommandErrorCause) : (s.raiseCommandError c).adb = s.adb := rfl
@[simp] theorem raiseCommandError_mem (c : CommandErrorCause) : (s.raiseCommandError c).mem = s.mem := rfl
@[simp] theorem raiseCommandError_host (c : CommandErrorCause) : (s.raiseCommandError c).host = s.host := rfl
@[simp] theorem raiseCommandError_received (c : CommandErrorCause) : (s.raiseCommandError c).received = .response 0 :: s.received := rfl
@[simp] theorem raiseCommandError_memAdmit (c : CommandErrorCause) : (s.raiseCommandError c).memAdmit = s.memAdmit := rfl
@[simp] theorem raiseCommandError_padIndex (c : CommandErrorCause) : (s.raiseCommandError c).padIndex = s.padIndex := rfl
@[simp] theorem raiseCommandError_resetIndex (c : CommandErrorCause) : (s.raiseCommandError c).resetIndex = s.resetIndex := rfl

/-! After `adler_byte`. -/

@[simp] theorem adlerByte_psrc (v : Byte) : (s.adlerByte v).psrc = s.psrc := rfl
@[simp] theorem adlerByte_pdst (v : Byte) : (s.adlerByte v).pdst = s.pdst := rfl
@[simp] theorem adlerByte_ret (v : Byte) : (s.adlerByte v).ret = s.ret := rfl
@[simp] theorem adlerByte_crcr (v : Byte) : (s.adlerByte v).crcr = s.crcr := rfl
@[simp] theorem adlerByte_status (v : Byte) : (s.adlerByte v).status = s.status := rfl
@[simp] theorem adlerByte_width (v : Byte) : (s.adlerByte v).width = s.width := rfl
@[simp] theorem adlerByte_height (v : Byte) : (s.adlerByte v).height = s.height := rfl
@[simp] theorem adlerByte_bpp (v : Byte) : (s.adlerByte v).bpp = s.bpp := rfl
@[simp] theorem adlerByte_rowcnt (v : Byte) : (s.adlerByte v).rowcnt = s.rowcnt := rfl
@[simp] theorem adlerByte_ada (v : Byte) : (s.adlerByte v).ada = adlerA s.ada v := rfl
@[simp] theorem adlerByte_adb (v : Byte) : (s.adlerByte v).adb = adlerB s.adb (adlerA s.ada v) := rfl
@[simp] theorem adlerByte_mem (v : Byte) : (s.adlerByte v).mem = s.mem := rfl
@[simp] theorem adlerByte_host (v : Byte) : (s.adlerByte v).host = s.host := rfl
@[simp] theorem adlerByte_received (v : Byte) : (s.adlerByte v).received = s.received := rfl
@[simp] theorem adlerByte_memAdmit (v : Byte) : (s.adlerByte v).memAdmit = s.memAdmit := rfl
@[simp] theorem adlerByte_padIndex (v : Byte) : (s.adlerByte v).padIndex = s.padIndex := rfl
@[simp] theorem adlerByte_resetIndex (v : Byte) : (s.adlerByte v).resetIndex = s.resetIndex := rfl

/-! After the reset of the Adler pair. -/

@[simp] theorem adlerReset_psrc : (s.adlerReset).psrc = s.psrc := rfl
@[simp] theorem adlerReset_pdst : (s.adlerReset).pdst = s.pdst := rfl
@[simp] theorem adlerReset_ret : (s.adlerReset).ret = s.ret := rfl
@[simp] theorem adlerReset_crcr : (s.adlerReset).crcr = s.crcr := rfl
@[simp] theorem adlerReset_status : (s.adlerReset).status = s.status := rfl
@[simp] theorem adlerReset_width : (s.adlerReset).width = s.width := rfl
@[simp] theorem adlerReset_height : (s.adlerReset).height = s.height := rfl
@[simp] theorem adlerReset_bpp : (s.adlerReset).bpp = s.bpp := rfl
@[simp] theorem adlerReset_rowcnt : (s.adlerReset).rowcnt = s.rowcnt := rfl
@[simp] theorem adlerReset_ada : (s.adlerReset).ada = 1 := rfl
@[simp] theorem adlerReset_adb : (s.adlerReset).adb = 0 := rfl
@[simp] theorem adlerReset_mem : (s.adlerReset).mem = s.mem := rfl
@[simp] theorem adlerReset_host : (s.adlerReset).host = s.host := rfl
@[simp] theorem adlerReset_received : (s.adlerReset).received = s.received := rfl
@[simp] theorem adlerReset_memAdmit : (s.adlerReset).memAdmit = s.memAdmit := rfl
@[simp] theorem adlerReset_padIndex : (s.adlerReset).padIndex = s.padIndex := rfl
@[simp] theorem adlerReset_resetIndex : (s.adlerReset).resetIndex = s.resetIndex := rfl

/-! After one emitted byte of a row. -/

@[simp] theorem emitByte_psrc (n : Nat) (v : Byte) : (s.emitByte n v).psrc = s.psrc := rfl
@[simp] theorem emitByte_pdst (n : Nat) (v : Byte) : (s.emitByte n v).pdst = s.pdst := rfl
@[simp] theorem emitByte_ret (n : Nat) (v : Byte) : (s.emitByte n v).ret = s.ret := rfl
@[simp] theorem emitByte_crcr (n : Nat) (v : Byte) : (s.emitByte n v).crcr = s.crcr := rfl
@[simp] theorem emitByte_status (n : Nat) (v : Byte) : (s.emitByte n v).status = s.status := rfl
@[simp] theorem emitByte_width (n : Nat) (v : Byte) : (s.emitByte n v).width = s.width := rfl
@[simp] theorem emitByte_height (n : Nat) (v : Byte) : (s.emitByte n v).height = s.height := rfl
@[simp] theorem emitByte_bpp (n : Nat) (v : Byte) : (s.emitByte n v).bpp = s.bpp := rfl
@[simp] theorem emitByte_rowcnt (n : Nat) (v : Byte) : (s.emitByte n v).rowcnt = s.rowcnt := rfl
@[simp] theorem emitByte_ada (n : Nat) (v : Byte) : (s.emitByte n v).ada = adlerA s.ada v := rfl
@[simp] theorem emitByte_adb (n : Nat) (v : Byte) : (s.emitByte n v).adb = adlerB s.adb (adlerA s.ada v) := rfl
@[simp] theorem emitByte_mem (n : Nat) (v : Byte) : (s.emitByte n v).mem = s.mem.write (s.pdst + addrOf n).toNat v := rfl
@[simp] theorem emitByte_host (n : Nat) (v : Byte) : (s.emitByte n v).host = s.host := rfl
@[simp] theorem emitByte_received (n : Nat) (v : Byte) : (s.emitByte n v).received = s.received := rfl
@[simp] theorem emitByte_memAdmit (n : Nat) (v : Byte) : (s.emitByte n v).memAdmit = s.memAdmit := rfl
@[simp] theorem emitByte_padIndex (n : Nat) (v : Byte) : (s.emitByte n v).padIndex = s.padIndex := rfl
@[simp] theorem emitByte_resetIndex (n : Nat) (v : Byte) : (s.emitByte n v).resetIndex = s.resetIndex := rfl

/-! After the registers after a row. -/

@[simp] theorem advanceRow_psrc : (s.advanceRow).psrc = s.psrc + addrOf s.width.toNat := rfl
@[simp] theorem advanceRow_pdst : (s.advanceRow).pdst = s.pdst + addrOf (6 + s.rowBytes) := rfl
@[simp] theorem advanceRow_ret : (s.advanceRow).ret = s.ret := rfl
@[simp] theorem advanceRow_crcr : (s.advanceRow).crcr = s.crcr := rfl
@[simp] theorem advanceRow_status : (s.advanceRow).status = s.status.emitRow s.lastRow := rfl
@[simp] theorem advanceRow_width : (s.advanceRow).width = s.width := rfl
@[simp] theorem advanceRow_height : (s.advanceRow).height = s.height := rfl
@[simp] theorem advanceRow_bpp : (s.advanceRow).bpp = s.bpp := rfl
@[simp] theorem advanceRow_rowcnt : (s.advanceRow).rowcnt = s.rowcnt + 1 := rfl
@[simp] theorem advanceRow_ada : (s.advanceRow).ada = s.ada := rfl
@[simp] theorem advanceRow_adb : (s.advanceRow).adb = s.adb := rfl
@[simp] theorem advanceRow_mem : (s.advanceRow).mem = s.mem := rfl
@[simp] theorem advanceRow_host : (s.advanceRow).host = s.host := rfl
@[simp] theorem advanceRow_received : (s.advanceRow).received = s.received := rfl
@[simp] theorem advanceRow_memAdmit : (s.advanceRow).memAdmit = s.memAdmit := rfl
@[simp] theorem advanceRow_padIndex : (s.advanceRow).padIndex = s.padIndex + 1 := rfl
@[simp] theorem advanceRow_resetIndex : (s.advanceRow).resetIndex = s.resetIndex := rfl

/-! After a legal CFG. -/

@[simp] theorem cfgEffect_psrc (w h : BitVec 8) (d : BitVec 4) : (s.cfgEffect w h d).psrc = s.psrc := rfl
@[simp] theorem cfgEffect_pdst (w h : BitVec 8) (d : BitVec 4) : (s.cfgEffect w h d).pdst = s.pdst := rfl
@[simp] theorem cfgEffect_ret (w h : BitVec 8) (d : BitVec 4) : (s.cfgEffect w h d).ret = 1 := rfl
@[simp] theorem cfgEffect_crcr (w h : BitVec 8) (d : BitVec 4) : (s.cfgEffect w h d).crcr = s.crcr := rfl
@[simp] theorem cfgEffect_status (w h : BitVec 8) (d : BitVec 4) : (s.cfgEffect w h d).status = s.status.configure := rfl
@[simp] theorem cfgEffect_width (w h : BitVec 8) (d : BitVec 4) : (s.cfgEffect w h d).width = w := rfl
@[simp] theorem cfgEffect_height (w h : BitVec 8) (d : BitVec 4) : (s.cfgEffect w h d).height = h := rfl
@[simp] theorem cfgEffect_bpp (w h : BitVec 8) (d : BitVec 4) : (s.cfgEffect w h d).bpp = d := rfl
@[simp] theorem cfgEffect_rowcnt (w h : BitVec 8) (d : BitVec 4) : (s.cfgEffect w h d).rowcnt = 0 := rfl
@[simp] theorem cfgEffect_ada (w h : BitVec 8) (d : BitVec 4) : (s.cfgEffect w h d).ada = s.ada := rfl
@[simp] theorem cfgEffect_adb (w h : BitVec 8) (d : BitVec 4) : (s.cfgEffect w h d).adb = s.adb := rfl
@[simp] theorem cfgEffect_mem (w h : BitVec 8) (d : BitVec 4) : (s.cfgEffect w h d).mem = s.mem := rfl
@[simp] theorem cfgEffect_host (w h : BitVec 8) (d : BitVec 4) : (s.cfgEffect w h d).host = s.host := rfl
@[simp] theorem cfgEffect_received (w h : BitVec 8) (d : BitVec 4) : (s.cfgEffect w h d).received = .response 1 :: s.received := rfl
@[simp] theorem cfgEffect_memAdmit (w h : BitVec 8) (d : BitVec 4) : (s.cfgEffect w h d).memAdmit = s.memAdmit := rfl
@[simp] theorem cfgEffect_padIndex (w h : BitVec 8) (d : BitVec 4) : (s.cfgEffect w h d).padIndex = s.padIndex := rfl
@[simp] theorem cfgEffect_resetIndex (w h : BitVec 8) (d : BitVec 4) : (s.cfgEffect w h d).resetIndex = s.resetIndex := rfl

/-! After reset. -/

@[simp] theorem resetBlock_psrc (d : ResetDraw) : (s.resetBlock d).psrc = d.psrc := rfl
@[simp] theorem resetBlock_pdst (d : ResetDraw) : (s.resetBlock d).pdst = d.pdst := rfl
@[simp] theorem resetBlock_ret (d : ResetDraw) : (s.resetBlock d).ret = d.ret := rfl
@[simp] theorem resetBlock_crcr (d : ResetDraw) : (s.resetBlock d).crcr = d.crcr := rfl
@[simp] theorem resetBlock_status (d : ResetDraw) : (s.resetBlock d).status = Status.afterReset := rfl
@[simp] theorem resetBlock_width (d : ResetDraw) : (s.resetBlock d).width = d.width := rfl
@[simp] theorem resetBlock_height (d : ResetDraw) : (s.resetBlock d).height = d.height := rfl
@[simp] theorem resetBlock_bpp (d : ResetDraw) : (s.resetBlock d).bpp = d.bpp := rfl
@[simp] theorem resetBlock_rowcnt (d : ResetDraw) : (s.resetBlock d).rowcnt = 0 := rfl
@[simp] theorem resetBlock_ada (d : ResetDraw) : (s.resetBlock d).ada = d.ada := rfl
@[simp] theorem resetBlock_adb (d : ResetDraw) : (s.resetBlock d).adb = d.adb := rfl
@[simp] theorem resetBlock_mem (d : ResetDraw) : (s.resetBlock d).mem = s.mem := rfl
@[simp] theorem resetBlock_host (d : ResetDraw) : (s.resetBlock d).host = s.host := rfl
@[simp] theorem resetBlock_received (d : ResetDraw) : (s.resetBlock d).received = s.received := rfl
@[simp] theorem resetBlock_memAdmit (d : ResetDraw) : (s.resetBlock d).memAdmit = s.memAdmit := rfl
@[simp] theorem resetBlock_padIndex (d : ResetDraw) : (s.resetBlock d).padIndex = s.padIndex := rfl
@[simp] theorem resetBlock_resetIndex (d : ResetDraw) : (s.resetBlock d).resetIndex = s.resetIndex := rfl

/-! After a host load. -/

@[simp] theorem hostLoad_psrc (a : Address) : (s.hostLoad a).psrc = s.psrc := rfl
@[simp] theorem hostLoad_pdst (a : Address) : (s.hostLoad a).pdst = s.pdst := rfl
@[simp] theorem hostLoad_ret (a : Address) : (s.hostLoad a).ret = s.ret := rfl
@[simp] theorem hostLoad_crcr (a : Address) : (s.hostLoad a).crcr = s.crcr := rfl
@[simp] theorem hostLoad_status (a : Address) : (s.hostLoad a).status = s.status := rfl
@[simp] theorem hostLoad_width (a : Address) : (s.hostLoad a).width = s.width := rfl
@[simp] theorem hostLoad_height (a : Address) : (s.hostLoad a).height = s.height := rfl
@[simp] theorem hostLoad_bpp (a : Address) : (s.hostLoad a).bpp = s.bpp := rfl
@[simp] theorem hostLoad_rowcnt (a : Address) : (s.hostLoad a).rowcnt = s.rowcnt := rfl
@[simp] theorem hostLoad_ada (a : Address) : (s.hostLoad a).ada = s.ada := rfl
@[simp] theorem hostLoad_adb (a : Address) : (s.hostLoad a).adb = s.adb := rfl
@[simp] theorem hostLoad_mem (a : Address) : (s.hostLoad a).mem = s.mem := rfl
@[simp] theorem hostLoad_host (a : Address) : (s.hostLoad a).host = s.host := rfl
@[simp] theorem hostLoad_received (a : Address) : (s.hostLoad a).received = .loaded a (s.memRead a) :: s.received := rfl
@[simp] theorem hostLoad_memAdmit (a : Address) : (s.hostLoad a).memAdmit = s.memAdmit := rfl
@[simp] theorem hostLoad_padIndex (a : Address) : (s.hostLoad a).padIndex = s.padIndex := rfl
@[simp] theorem hostLoad_resetIndex (a : Address) : (s.hostLoad a).resetIndex = s.resetIndex := rfl

/-! Reset as a host action, register by register. -/

@[simp] theorem hostReset_status : s.hostReset.status = Status.afterReset := rfl
@[simp] theorem hostReset_rowcnt : s.hostReset.rowcnt = 0 := rfl
@[simp] theorem hostReset_mem : s.hostReset.mem = s.mem := rfl
@[simp] theorem hostReset_host : s.hostReset.host = s.host := rfl
@[simp] theorem hostReset_received : s.hostReset.received = s.received := rfl
@[simp] theorem hostReset_memAdmit : s.hostReset.memAdmit = s.memAdmit := rfl
@[simp] theorem hostReset_padIndex : s.hostReset.padIndex = s.padIndex := rfl
@[simp] theorem hostReset_resetIndex : s.hostReset.resetIndex = s.resetIndex + 1 := rfl

/-! The flags. -/

variable (f : Status)

@[simp] theorem raiseIll_cfgd : f.raiseIll.cfgd = f.cfgd := rfl
@[simp] theorem raiseIll_bound : f.raiseIll.bound = f.bound := rfl
@[simp] theorem raiseIll_done : f.raiseIll.done = f.done := rfl
@[simp] theorem raiseIll_ill : f.raiseIll.ill = true := rfl
@[simp] theorem configure_cfgd : f.configure.cfgd = true := rfl
@[simp] theorem configure_bound : f.configure.bound = f.bound := rfl
@[simp] theorem configure_done : f.configure.done = false := rfl
@[simp] theorem configure_ill : f.configure.ill = f.ill := rfl
@[simp] theorem bindBuffers_cfgd : f.bindBuffers.cfgd = f.cfgd := rfl
@[simp] theorem bindBuffers_bound : f.bindBuffers.bound = true := rfl
@[simp] theorem bindBuffers_done : f.bindBuffers.done = f.done := rfl
@[simp] theorem bindBuffers_ill : f.bindBuffers.ill = f.ill := rfl
@[simp] theorem emitRow_cfgd (last : Bool) : (f.emitRow last).cfgd = f.cfgd := rfl
@[simp] theorem emitRow_bound (last : Bool) : (f.emitRow last).bound = f.bound := rfl
@[simp] theorem emitRow_done (last : Bool) : (f.emitRow last).done = (f.done || last) := rfl
@[simp] theorem emitRow_ill (last : Bool) : (f.emitRow last).ill = f.ill := rfl
@[simp] theorem afterReset_cfgd : Status.afterReset.cfgd = false := rfl
@[simp] theorem afterReset_bound : Status.afterReset.bound = false := rfl
@[simp] theorem afterReset_done : Status.afterReset.done = false := rfl
@[simp] theorem afterReset_ill : Status.afterReset.ill = false := rfl

end Sys2Proof.Machine
end

