-- ==== Sys2Proof/Laws/Memory.lean ====
section
/-! SUPPORT. Memory: read after write, the canonical form, multi-byte writes (20_memory.md R51, R55). -/

namespace Sys2Proof.Machine

/-! The list. -/

theorem Memory.wfFrom_cons {lo a : Nat} {v : Byte} {m : Memory} :
    Memory.wfFrom lo ((a, v) :: m) = true ↔
      lo ≤ a ∧ a < 65536 ∧ v ≠ unlistedByte ∧ Memory.wfFrom (a + 1) m = true := by
  simp [Memory.wfFrom, and_assoc]

theorem Memory.wfFrom_mono {lo lo' : Nat} {m : Memory} (h : Memory.wfFrom lo m = true) (hl : lo' ≤ lo) :
    Memory.wfFrom lo' m = true := by
  match m with
  | [] => rfl
  | (a, v) :: rest =>
    rw [Memory.wfFrom_cons] at h ⊢
    exact ⟨by omega, h.2⟩

/-- No cell below the bound is listed. -/
theorem Memory.read_below {lo a : Nat} {m : Memory} (h : Memory.wfFrom lo m = true) (ha : a < lo) :
    Memory.read m a = unlistedByte := by
  induction m generalizing lo with
  | nil => rfl
  | cons c rest ih =>
    obtain ⟨b, w⟩ := c
    rw [Memory.wfFrom_cons] at h
    rw [Memory.read, if_neg (by omega)]
    exact ih h.2.2.2 (by omega)

@[simp] theorem Memory.read_consCell_other {a b : Nat} (v : Byte) (m : Memory) (hb : b ≠ a) :
    Memory.read (Memory.consCell a v m) b = Memory.read m b := by
  unfold Memory.consCell
  split
  · rfl
  · rw [Memory.read, if_neg hb]

theorem Memory.read_consCell_same {a : Nat} (v : Byte) {m : Memory} (h : Memory.wfFrom (a + 1) m = true) :
    Memory.read (Memory.consCell a v m) a = v := by
  unfold Memory.consCell
  split
  · rename_i hv
    rw [Memory.read_below h (by omega), hv]
  · simp [Memory.read]

theorem Memory.wfFrom_consCell {lo a : Nat} (v : Byte) {m : Memory} (h : Memory.wfFrom (a + 1) m = true)
    (hl : lo ≤ a) (ha : a < 65536) : Memory.wfFrom lo (Memory.consCell a v m) = true := by
  unfold Memory.consCell
  split
  · exact Memory.wfFrom_mono h (by omega)
  · rename_i hv
    exact Memory.wfFrom_cons.mpr ⟨hl, ha, hv, h⟩

/-- A write changes no other cell (R51). -/
theorem Memory.read_write_other {a b : Nat} (v : Byte) (m : Memory) (hb : b ≠ a) :
    Memory.read (Memory.write m a v) b = Memory.read m b := by
  induction m with
  | nil => simp [Memory.write, hb]
  | cons c rest ih =>
    obtain ⟨x, w⟩ := c
    rw [Memory.write]
    split
    · simp [hb]
    · split
      · rename_i hx
        rw [Memory.read_consCell_other v rest hb, Memory.read, if_neg (by omega)]
      · rw [Memory.read, Memory.read, ih]

/-- A write keeps the canonical form. -/
theorem Memory.wfFrom_write {lo a : Nat} (v : Byte) {m : Memory} (h : Memory.wfFrom lo m = true) (hl : lo ≤ a)
    (ha : a < 65536) : Memory.wfFrom lo (Memory.write m a v) = true := by
  induction m generalizing lo with
  | nil => exact Memory.wfFrom_consCell v rfl hl ha
  | cons c rest ih =>
    obtain ⟨x, w⟩ := c
    have hc := Memory.wfFrom_cons.mp h
    rw [Memory.write]
    split
    · exact Memory.wfFrom_consCell v (Memory.wfFrom_cons.mpr ⟨by omega, hc.2⟩) hl ha
    · split
      · rename_i hx
        exact Memory.wfFrom_consCell v (hx ▸ hc.2.2.2) hl ha
      · exact Memory.wfFrom_cons.mpr ⟨hc.1, hc.2.1, hc.2.2.1, ih hc.2.2.2 (by omega)⟩

/-- A read of the cell just written gives the value written (R51). -/
theorem Memory.read_write_same {lo a : Nat} (v : Byte) {m : Memory} (h : Memory.wfFrom lo m = true) :
    Memory.read (Memory.write m a v) a = v := by
  induction m generalizing lo with
  | nil => exact Memory.read_consCell_same v rfl
  | cons c rest ih =>
    obtain ⟨x, w⟩ := c
    have hc := Memory.wfFrom_cons.mp h
    rw [Memory.write]
    split
    · exact Memory.read_consCell_same v (Memory.wfFrom_cons.mpr ⟨by omega, hc.2⟩)
    · split
      · rename_i hx
        exact Memory.read_consCell_same v (hx ▸ hc.2.2.2)
      · rw [Memory.read, if_neg (by omega)]
        exact ih hc.2.2.2

/-! The state's memory. -/

theorem wf_memWrite {s : State} (a : Address) (v : Byte) (h : s.mem.wf = true) :
    (s.memWrite a v).mem.wf = true :=
  Memory.wfFrom_write v h (Nat.zero_le _) a.isLt

theorem memRead_memWrite_same {s : State} (a : Address) (v : Byte) (h : s.mem.wf = true) :
    (s.memWrite a v).memRead a = v :=
  Memory.read_write_same v h

theorem memRead_memWrite_other (s : State) {a b : Address} (v : Byte) (hb : b ≠ a) :
    (s.memWrite a v).memRead b = s.memRead b :=
  Memory.read_write_other v s.mem fun h => hb (BitVec.eq_of_toNat_eq h)

/-- A read depends on the memory alone. -/
theorem memRead_congr {s t : State} (h : t.mem = s.mem) (a : Address) : t.memRead a = s.memRead a := by
  unfold State.memRead
  rw [h]

/-- Memory after reset has the canonical form. -/
theorem wf_reset : State.reset.mem.wf = true := rfl

/-! Writes of several bytes. -/

theorem writeBytes_nil (s : State) (a : Address) : s.writeBytes a [] = s := by rw [State.writeBytes]

theorem writeBytes_cons (s : State) (a : Address) (v : Byte) (bs : List Byte) :
    s.writeBytes a (v :: bs) = (s.memWrite a v).writeBytes (a + 1) bs := by rw [State.writeBytes]

/-- Writing bytes changes memory alone. -/
theorem writeBytes_eq (s : State) (a : Address) (bs : List Byte) :
    s.writeBytes a bs = { s with mem := (s.writeBytes a bs).mem } := by
  induction bs generalizing s a with
  | nil => rw [writeBytes_nil]
  | cons v bs ih =>
    rw [writeBytes_cons, ih]
    rfl

/-! Every other field after writing bytes. -/

@[simp] theorem writeBytes_psrc (s : State) (a : Address) (bs : List Byte) :
    (s.writeBytes a bs).psrc = s.psrc := by rw [writeBytes_eq]
@[simp] theorem writeBytes_pdst (s : State) (a : Address) (bs : List Byte) :
    (s.writeBytes a bs).pdst = s.pdst := by rw [writeBytes_eq]
@[simp] theorem writeBytes_ret (s : State) (a : Address) (bs : List Byte) :
    (s.writeBytes a bs).ret = s.ret := by rw [writeBytes_eq]
@[simp] theorem writeBytes_crcr (s : State) (a : Address) (bs : List Byte) :
    (s.writeBytes a bs).crcr = s.crcr := by rw [writeBytes_eq]
@[simp] theorem writeBytes_status (s : State) (a : Address) (bs : List Byte) :
    (s.writeBytes a bs).status = s.status := by rw [writeBytes_eq]
@[simp] theorem writeBytes_width (s : State) (a : Address) (bs : List Byte) :
    (s.writeBytes a bs).width = s.width := by rw [writeBytes_eq]
@[simp] theorem writeBytes_height (s : State) (a : Address) (bs : List Byte) :
    (s.writeBytes a bs).height = s.height := by rw [writeBytes_eq]
@[simp] theorem writeBytes_bpp (s : State) (a : Address) (bs : List Byte) :
    (s.writeBytes a bs).bpp = s.bpp := by rw [writeBytes_eq]
@[simp] theorem writeBytes_rowcnt (s : State) (a : Address) (bs : List Byte) :
    (s.writeBytes a bs).rowcnt = s.rowcnt := by rw [writeBytes_eq]
@[simp] theorem writeBytes_ada (s : State) (a : Address) (bs : List Byte) :
    (s.writeBytes a bs).ada = s.ada := by rw [writeBytes_eq]
@[simp] theorem writeBytes_adb (s : State) (a : Address) (bs : List Byte) :
    (s.writeBytes a bs).adb = s.adb := by rw [writeBytes_eq]
@[simp] theorem writeBytes_host (s : State) (a : Address) (bs : List Byte) :
    (s.writeBytes a bs).host = s.host := by rw [writeBytes_eq]
@[simp] theorem writeBytes_received (s : State) (a : Address) (bs : List Byte) :
    (s.writeBytes a bs).received = s.received := by rw [writeBytes_eq]
@[simp] theorem writeBytes_memAdmit (s : State) (a : Address) (bs : List Byte) :
    (s.writeBytes a bs).memAdmit = s.memAdmit := by rw [writeBytes_eq]
@[simp] theorem writeBytes_padIndex (s : State) (a : Address) (bs : List Byte) :
    (s.writeBytes a bs).padIndex = s.padIndex := by rw [writeBytes_eq]
@[simp] theorem writeBytes_resetIndex (s : State) (a : Address) (bs : List Byte) :
    (s.writeBytes a bs).resetIndex = s.resetIndex := by rw [writeBytes_eq]

theorem wf_writeBytes {s : State} (a : Address) (bs : List Byte) (h : s.mem.wf = true) :
    (s.writeBytes a bs).mem.wf = true := by
  induction bs generalizing s a with
  | nil => rwa [writeBytes_nil]
  | cons v bs ih =>
    rw [writeBytes_cons]
    exact ih (a + 1) (wf_memWrite a v h)

/-- A cell that is `n` or more places after `a`, modulo 65536, is none of the first `n` cells from `a`. -/
theorem sub_succ_toNat {a c : Address} (h : c ≠ a) : (c - (a + 1)).toNat = (c - a).toNat - 1 := by
  bv_omega

/-- A write of several bytes leaves every cell outside them alone (R51, R55). -/
theorem memRead_writeBytes_outside (s : State) (a : Address) (bs : List Byte) (c : Address)
    (h : bs.length ≤ (c - a).toNat) : (s.writeBytes a bs).memRead c = s.memRead c := by
  induction bs generalizing s a with
  | nil => rw [writeBytes_nil]
  | cons v bs ih =>
    have hc : c ≠ a := by
      rintro rfl
      simp at h
    rw [writeBytes_cons, ih, memRead_memWrite_other s v hc]
    rw [sub_succ_toNat hc]
    simp only [List.length_cons] at h
    omega

/-- A write of at most 65536 bytes leaves byte `i` in cell `(a + i) mod 65536` (R51, R55). -/
theorem memRead_writeBytes_inside {s : State} (a : Address) (bs : List Byte) (h : s.mem.wf = true)
    (hl : bs.length ≤ 65536) (i : Nat) (hi : i < bs.length) :
    (s.writeBytes a bs).memRead (a + addrOf i) = bs[i] := by
  induction bs generalizing s a i with
  | nil => simp at hi
  | cons v bs ih =>
    simp only [List.length_cons] at hl hi
    rw [writeBytes_cons]
    cases i with
    | zero =>
      simp only [addrOf, BitVec.ofNat_eq_ofNat, BitVec.add_zero, List.getElem_cons_zero]
      rw [memRead_writeBytes_outside _ _ _ _ (by bv_omega), memRead_memWrite_same a v h]
    | succ i =>
      have ha : a + addrOf (i + 1) = (a + 1) + addrOf i := by
        simp only [addrOf]
        bv_omega
      rw [ha, ih (a + 1) (wf_memWrite a v h) (by omega) i (by omega), List.getElem_cons_succ]

end Sys2Proof.Machine
end

