-- ==== Sys2Proof/Laws/Ops.lean ====
section
/-! SUPPORT. What each shared operation and each meaning can do, said once. -/

namespace Sys2Proof.Machine

/-! `MEM_ADMIT`. -/

theorem completeIf_next {b : Bool} {t u : State} : completeIf b t = .next u ↔ b = true ∧ t = u := by
  cases b <;> simp [completeIf]

theorem completeIf_fault {b : Bool} {t : State} {f : Fault} :
    completeIf b t = .fault f ↔ b = false ∧ f = .accessNotAdmitted := by
  cases b <;> simp [completeIf, eq_comm]

theorem completeIf_true {b : Bool} (t : State) (h : b = true) : completeIf b t = .next t := by
  simp [completeIf, h]

theorem admits_of_admitsEverything {s : State} (h : AdmitsEverything s) (k : AccessKind) (a : Address) :
    s.admits k a = true := by
  simp [State.admits, show s.memAdmit = [] from h]

/-- A cell is its offset from `a` after `a`. -/
theorem addrOf_offset (a c : Address) : a + addrOf (c - a).toNat = c := by
  rw [addrOf, BitVec.ofNat_toNat, BitVec.setWidth_eq]
  bv_omega

/-- A span is admitted when each of its cells is (R55, R56). -/
theorem admitsSpan_iff {s : State} {k : AccessKind} {a : Address} {n : Nat} (hn : n ≤ 65536) :
    s.admitsSpan k a n = true ↔ ∀ c, InSpan a n c → s.admits k c = true := by
  simp only [State.admitsSpan, List.all_eq_true, List.mem_range, InSpan]
  constructor
  · intro h c hc
    have := h (c - a).toNat hc
    rwa [addrOf_offset] at this
  · intro h i hi
    refine h _ ?_
    rw [show a + addrOf i - a = addrOf i by bv_omega, BitVec.toNat_ofNat]
    omega

theorem admitsSpan_of_admitsEverything {s : State} (h : AdmitsEverything s) (k : AccessKind) (a : Address)
    (n : Nat) : s.admitsSpan k a n = true := by
  simp [State.admitsSpan, admits_of_admitsEverything h]

/-! Stores at the cursor. -/

/-- Everything CRCST and ADST change: memory, PDST, RET and what the host got. -/
theorem storeAtCursor_eq (s : State) (w : Word32) :
    s.storeAtCursor w =
      { s with
        mem := (s.writeBytes s.pdst (bigEndian w)).mem
        pdst := s.pdst + 4
        ret := 4
        received := s.responses 4 } := by
  rw [State.storeAtCursor, writeBytes_eq]
  rfl

theorem storeCommand_next {s t : State} {w : Word32} (h : storeCommand s w = .next t) :
    (s.status.bound = false ∧ t = s.refuse) ∨
    (s.status.bound = true ∧ s.admitsSpan .write s.pdst 4 = true ∧ t = s.storeAtCursor w) := by
  unfold storeCommand at h
  split at h
  · rename_i hb
    exact .inl ⟨by simpa [Status.refusesStore] using hb, by simpa using h.symm⟩
  · rename_i hb
    obtain ⟨ha, ht⟩ := completeIf_next.mp h
    exact .inr ⟨by simpa [Status.refusesStore] using hb, ha, ht.symm⟩

theorem storeCommand_refused {s : State} (w : Word32) (h : s.status.bound = false) :
    storeCommand s w = .next s.refuse := by
  simp [storeCommand, Status.refusesStore, h]

theorem storeCommand_completes {s : State} (w : Word32) (h : s.status.bound = true)
    (ha : s.admitsSpan .write s.pdst 4 = true) : storeCommand s w = .next (s.storeAtCursor w) := by
  simp [storeCommand, Status.refusesStore, h, completeIf, ha]

@[simp] theorem length_bigEndian (w : Word32) : (bigEndian w).length = 4 := rfl

@[simp] theorem length_littleEndian (h : Half) : (littleEndian h).length = 2 := rfl

/-- The four bytes stored (R52). -/
theorem memRead_storeAtCursor_inside {s : State} (w : Word32) (h : s.mem.wf = true) (i : Nat) (hi : i < 4) :
    (s.storeAtCursor w).memRead (s.pdst + addrOf i) = (bigEndian w)[i]'(by rw [length_bigEndian]; exact hi) := by
  rw [storeAtCursor_eq]
  exact memRead_writeBytes_inside s.pdst (bigEndian w) h (by rw [length_bigEndian]; omega) i _

/-- Every other cell is as before. -/
theorem memRead_storeAtCursor_outside (s : State) (w : Word32) {c : Address} (h : ¬ InSpan s.pdst 4 c) :
    (s.storeAtCursor w).memRead c = s.memRead c := by
  rw [storeAtCursor_eq]
  exact memRead_writeBytes_outside s s.pdst (bigEndian w) c (Nat.le_of_not_lt h)

/-! Buffers. -/

@[simp] theorem length_buffer (s : State) (a : Address) (n : Nat) : (s.buffer a n).length = n := by
  simp [State.buffer]

theorem buffer_getElem (s : State) (a : Address) (n i : Nat) (h : i < (s.buffer a n).length) :
    (s.buffer a n)[i] = s.memRead (a + addrOf i) := by
  simp [State.buffer]

/-- A buffer depends on its cells alone. -/
theorem buffer_congr {s t : State} {a b : Address} {n : Nat}
    (h : ∀ i < n, t.memRead (b + addrOf i) = s.memRead (a + addrOf i)) : t.buffer b n = s.buffer a n := by
  simp only [State.buffer]
  exact List.map_congr_left fun i hi => h i (List.mem_range.mp hi)

/-- A buffer is its first part followed by the rest. -/
theorem buffer_append (s : State) (a : Address) (m n : Nat) :
    s.buffer a (m + n) = s.buffer a m ++ s.buffer (a + addrOf m) n := by
  simp only [State.buffer, List.range_add, List.map_append, List.map_map]
  congr 1
  refine List.map_congr_left fun i _ => ?_
  simp only [Function.comp, addrOf]
  congr 1
  bv_omega

/-- A buffer that is not empty is its first byte followed by the rest. -/
theorem buffer_cons (s : State) (a : Address) (n : Nat) :
    s.buffer a (1 + n) = s.memRead a :: s.buffer (a + 1) n := by
  rw [buffer_append]
  simp [State.buffer, addrOf]

/-! Registers by read index. -/

/-- A read index selects a register exactly when it is at most 8 (R27). -/
theorem readIndex_isSome (s : State) (reg : Half) : (s.readIndex reg).isSome = true ↔ reg.toNat ≤ 8 := by
  unfold State.readIndex
  split <;> simp_all
  omega

end Sys2Proof.Machine
end

