-- ==== Sys2Proof/Laws/Exec.lean ====
section
/-! SUPPORT. Everything a command and a step can do: one inversion lemma for `exec`, one for `step`. -/

namespace Sys2Proof.Machine

/-- What a command does when it is neither a command error nor refused. -/
def effect (i : Instr) (s : State) : State :=
  match i with
  | .crc32 addr len => s.crc32Effect addr len
  | .crcst => s.storeAtCursor s.crcr
  | .adrst => s.adlerReset.respond 1
  | .adupd addr len => s.adupdEffect addr len
  | .adst => s.storeAtCursor s.adlerWord
  | .cfg width height bpp => s.cfgEffect width height bpp
  | .bind src dst => { s with psrc := src, pdst := dst, status := s.status.bindBuffers }.respond 1
  | .row => s.rowEffect (Config.pad s.padIndex)
  | .rd reg => s.respond ((s.readIndex reg).getD 0)

/-- The admission test a command makes. -/
def admitted (i : Instr) (s : State) : Bool :=
  match i with
  | .crc32 addr len => s.admitsSpan .read addr len.toNat
  | .crcst => s.admitsSpan .write s.pdst 4
  | .adrst => true
  | .adupd addr len => s.admitsSpan .read addr len.toNat
  | .adst => s.admitsSpan .write s.pdst 4
  | .cfg _ _ _ => true
  | .bind _ _ => true
  | .row => s.admitsRow
  | .rd _ => true

theorem not_inSpan_zero (a c : Address) : ¬ InSpan a 0 c := by simp [InSpan]

theorem bytesWritten_le (i : Instr) (s : State) : bytesWritten i s ≤ 65536 := by
  have := s.width.isLt
  have := s.bpp.isLt
  have : s.width.toNat * s.bpp.toNat ≤ 255 * 15 := Nat.mul_le_mul (by omega) (by omega)
  cases i <;> simp only [bytesWritten] <;> omega

theorem cellsRead_le (i : Instr) (s : State) : (cellsRead i s).2 ≤ 65536 := by
  have := s.width.isLt
  cases i <;> simp only [cellsRead] <;> omega

/-- The test is that every access of the command is admitted (R56). -/
theorem admitted_iff (i : Instr) (s : State) : admitted i s = true ↔ AccessesAdmitted i s := by
  unfold AccessesAdmitted
  rw [← admitsSpan_iff (bytesWritten_le i s), ← admitsSpan_iff (cellsRead_le i s)]
  cases i <;> simp [admitted, bytesWritten, cellsRead, State.admitsSpan, State.admitsRow, State.rowBytes]

theorem admitted_of_admitsEverything {s : State} (h : AdmitsEverything s) (i : Instr) : admitted i s = true := by
  cases i <;> simp [admitted, State.admitsRow, admitsSpan_of_admitsEverything h]

theorem refusesRow_iff (s : State) : s.status.refusesRow = true ↔ RefusalHolds .row s := by
  simp [Status.refusesRow, RefusalHolds, or_assoc]

theorem legalReadIndex_iff (reg : Half) : legalReadIndex reg = true ↔ reg.toNat ≤ 8 := by
  simp [legalReadIndex]

/-! What each ending of a command is (R160). -/

/-- A refusal (R163). -/
theorem exec_refused {i : Instr} {s : State} (h : RefusalHolds i s) : exec i s = .next s.refuse := by
  cases i <;> simp only [RefusalHolds] at h <;>
    first
    | exact storeCommand_refused _ h
    | simp [exec, execRow, execRowWith, (refusesRow_iff s).mpr h]

/-- A command error found by the command itself (R111, R130). -/
theorem exec_illFormed {i : Instr} {s : State} (h : i.wellFormed = false) :
    exec i s = .next (s.raiseCommandError .badOperand) := by
  cases i <;> simp only [Instr.wellFormed, reduceCtorEq] at h
  · simp [exec, execCfg, h]
  · rename_i reg
    have : s.readIndex reg = none := by
      rw [← Option.not_isSome_iff_eq_none, readIndex_isSome, ← legalReadIndex_iff, h]
      simp
    simp [exec, execRd, this]

/-- Neither: the command has its effect, or faults when an access is not admitted. -/
theorem exec_wellFormed {i : Instr} {s : State} (hw : i.wellFormed = true) (hr : ¬ RefusalHolds i s) :
    exec i s = completeIf (admitted i s) (effect i s) := by
  cases i <;> simp only [Instr.wellFormed, RefusalHolds] at hw hr
  case crcst => simp [exec, execCrcst, storeCommand, Status.refusesStore, admitted, effect, hr]
  case adst => simp [exec, execAdst, storeCommand, Status.refusesStore, admitted, effect, hr]
  case cfg => simp [exec, execCfg, hw, admitted, effect, completeIf]
  case row =>
    have : s.status.refusesRow = false := by
      rw [← Bool.not_eq_true, refusesRow_iff]
      exact hr
    simp [exec, execRow, execRowWith, this, admitted, effect]
  case rd reg =>
    obtain ⟨v, hv⟩ := Option.isSome_iff_exists.mp ((readIndex_isSome s reg).mpr ((legalReadIndex_iff reg).mp hw))
    simp [exec, execRd, hv, admitted, effect, completeIf]
  all_goals rfl

/-- Everything `exec` can answer. -/
theorem exec_cases (i : Instr) (s : State) :
    (i.wellFormed = false ∧ exec i s = .next (s.raiseCommandError .badOperand)) ∨
    (i.wellFormed = true ∧ RefusalHolds i s ∧ exec i s = .next s.refuse) ∨
    (i.wellFormed = true ∧ ¬ RefusalHolds i s ∧ admitted i s = true ∧ exec i s = .next (effect i s)) ∨
    (i.wellFormed = true ∧ ¬ RefusalHolds i s ∧ admitted i s = false ∧ exec i s = .fault .accessNotAdmitted) := by
  cases hw : i.wellFormed
  · exact .inl ⟨rfl, exec_illFormed hw⟩
  · by_cases hr : RefusalHolds i s
    · exact .inr (.inl ⟨rfl, hr, exec_refused hr⟩)
    · rw [exec_wellFormed hw hr]
      cases ha : admitted i s
      · exact .inr (.inr (.inr ⟨rfl, hr, rfl, rfl⟩))
      · exact .inr (.inr (.inl ⟨rfl, hr, rfl, rfl⟩))

/-- Everything a next state of `exec` can be. -/
theorem exec_next {i : Instr} {s t : State} (h : exec i s = .next t) :
    t = s.raiseCommandError .badOperand ∨ t = s.refuse ∨
      (¬ RefusalHolds i s ∧ admitted i s = true ∧ t = effect i s) := by
  rcases exec_cases i s with ⟨-, he⟩ | ⟨-, -, he⟩ | ⟨-, hr, ha, he⟩ | ⟨-, -, -, he⟩ <;> rw [he] at h
  · exact .inl (Host.Outcome.next.inj h).symm
  · exact .inr (.inl (Host.Outcome.next.inj h).symm)
  · exact .inr (.inr ⟨hr, ha, (Host.Outcome.next.inj h).symm⟩)
  · nomatch h

/-- A well-formed command that is not refused and answers a next state has had its effect, with every access admitted. -/
theorem exec_next_effect {i : Instr} {s t : State} (hw : i.wellFormed = true) (hr : ¬ RefusalHolds i s)
    (h : exec i s = .next t) : admitted i s = true ∧ t = effect i s := by
  rw [exec_wellFormed hw hr] at h
  obtain ⟨ha, ht⟩ := completeIf_next.mp h
  exact ⟨ha, ht.symm⟩

/-- A well-formed command that is not refused completes when its accesses are admitted. -/
theorem exec_completes {i : Instr} {s : State} (hw : i.wellFormed = true) (hr : ¬ RefusalHolds i s)
    (ha : AccessesAdmitted i s) : exec i s = .next (effect i s) := by
  rw [exec_wellFormed hw hr, completeIf_true _ ((admitted_iff i s).mpr ha)]

/-- Everything a command word can do: a command error, or what its command does. -/
theorem runCommand_next {cw : CommandWord} {s t : State} (h : runCommand cw s = .next t) :
    (∃ c, decode cw = .error c ∧ t = s.raiseCommandError c) ∨ (∃ i, decode cw = .ok i ∧ exec i s = .next t) := by
  unfold runCommand at h
  split at h
  · rename_i c hc
    exact .inl ⟨c, hc, (Host.Outcome.next.inj h).symm⟩
  · rename_i i hi
    exact .inr ⟨i, hi, h⟩

/-- Everything a step can do: idle, or one move of the host (R140). -/
theorem step_next {s t : State} (h : step s = .next t) :
    (s.host = [] ∧ t = s) ∨
    ∃ rest,
      (∃ cw, s.host = .issue cw :: rest ∧ runCommand cw { s with host := rest } = .next t) ∨
      (∃ a v, s.host = .store a v :: rest ∧ t = { s with host := rest }.memWrite a v) ∨
      (∃ a, s.host = .load a :: rest ∧ t = { s with host := rest }.hostLoad a) ∨
      (s.host = .reset :: rest ∧ t = { s with host := rest }.hostReset) := by
  unfold step at h
  split at h
  · rename_i hh
    exact .inl ⟨hh, (Host.Outcome.next.inj h).symm⟩
  · rename_i act rest hh
    refine .inr ⟨rest, ?_⟩
    cases act with
    | issue cw => exact .inl ⟨cw, hh, h⟩
    | store a v => exact .inr (.inl ⟨a, v, hh, (Host.Outcome.next.inj h).symm⟩)
    | load a => exact .inr (.inr (.inl ⟨a, hh, (Host.Outcome.next.inj h).symm⟩))
    | reset => exact .inr (.inr (.inr ⟨hh, (Host.Outcome.next.inj h).symm⟩))

end Sys2Proof.Machine
end

