-- ==== Sys2Proof/Laws/Serializer.lean ====
section
/-! SUPPORT. The row serializer: what the first `n` turns of the packing loop of 42_row_serializer.md R115 leave, in memory
and in the Adler pair, and the bits of a packed byte (R114, R116). -/

namespace Sys2Proof.Machine

/-- The state after the header, the filter byte and the first `n` packed bytes of a row (R115). -/
def rowPrefix (s : State) (p : Byte) (n : Nat) : State :=
  (List.range n).foldl (State.emitPacked p) ((s.startRow.writeBytes s.pdst s.rowHeader).emitByte 5 filterByte)

theorem writeRow_eq_rowPrefix (s : State) (p : Byte) : s.writeRow p = rowPrefix s p s.rowBytes := rfl

theorem rowPrefix_zero (s : State) (p : Byte) :
    rowPrefix s p 0 = (s.startRow.writeBytes s.pdst s.rowHeader).emitByte 5 filterByte := rfl

theorem rowPrefix_succ (s : State) (p : Byte) (n : Nat) :
    rowPrefix s p (n + 1) = (rowPrefix s p n).emitByte (6 + n) ((rowPrefix s p n).packedByte p n) := by
  simp [rowPrefix, List.range_succ, State.emitPacked]

theorem startRow_eq (s : State) : s.startRow = { s with ada := s.startRow.ada, adb := s.startRow.adb } := by
  unfold State.startRow
  split <;> rfl

/-- Only memory and the Adler pair change while a row is written (R115). -/
theorem rowPrefix_eq (s : State) (p : Byte) (n : Nat) :
    rowPrefix s p n =
      { s with mem := (rowPrefix s p n).mem, ada := (rowPrefix s p n).ada, adb := (rowPrefix s p n).adb } := by
  induction n with
  | zero =>
    rw [rowPrefix_zero, writeBytes_eq, startRow_eq]
    rfl
  | succ n ih =>
    rw [rowPrefix_succ, ih]
    rfl

@[simp] theorem rowPrefix_psrc (s : State) (p : Byte) (n : Nat) : (rowPrefix s p n).psrc = s.psrc := by
  rw [rowPrefix_eq]
@[simp] theorem rowPrefix_pdst (s : State) (p : Byte) (n : Nat) : (rowPrefix s p n).pdst = s.pdst := by
  rw [rowPrefix_eq]
@[simp] theorem rowPrefix_width (s : State) (p : Byte) (n : Nat) : (rowPrefix s p n).width = s.width := by
  rw [rowPrefix_eq]
@[simp] theorem rowPrefix_height (s : State) (p : Byte) (n : Nat) : (rowPrefix s p n).height = s.height := by
  rw [rowPrefix_eq]
@[simp] theorem rowPrefix_bpp (s : State) (p : Byte) (n : Nat) : (rowPrefix s p n).bpp = s.bpp := by
  rw [rowPrefix_eq]
@[simp] theorem rowPrefix_rowcnt (s : State) (p : Byte) (n : Nat) : (rowPrefix s p n).rowcnt = s.rowcnt := by
  rw [rowPrefix_eq]
@[simp] theorem rowPrefix_status (s : State) (p : Byte) (n : Nat) : (rowPrefix s p n).status = s.status := by
  rw [rowPrefix_eq]

@[simp] theorem startRow_mem (s : State) : s.startRow.mem = s.mem := by rw [startRow_eq]
@[simp] theorem startRow_pdst (s : State) : s.startRow.pdst = s.pdst := by rw [startRow_eq]

/-- The whole effect of a row but for memory and the Adler pair (R115, R117). -/
theorem rowEffect_eq (s : State) (p : Byte) :
    s.rowEffect p =
      { s with
        mem := (s.writeRow p).mem
        ada := (s.writeRow p).ada
        adb := (s.writeRow p).adb
        psrc := s.psrc + addrOf s.width.toNat
        pdst := s.pdst + addrOf (6 + s.rowBytes)
        rowcnt := s.rowcnt + 1
        status := s.status.emitRow s.lastRow
        padIndex := s.padIndex + 1
        ret := BitVec.ofNat 32 (6 + s.rowBytes)
        received := s.responses (BitVec.ofNat 32 (6 + s.rowBytes)) } := by
  rw [State.rowEffect, writeRow_eq_rowPrefix, rowPrefix_eq]
  rfl

/-! Memory. -/

theorem length_rowHeader (s : State) : s.rowHeader.length = 5 := rfl

theorem rowBytes_le (s : State) : s.rowBytes ≤ 479 := by
  have := s.width.isLt
  have := s.bpp.isLt
  have : s.width.toNat * s.bpp.toNat ≤ 255 * 15 := Nat.mul_le_mul (by omega) (by omega)
  simp only [State.rowBytes]
  omega

theorem memRead_emitByte_same {s : State} (n : Nat) (v : Byte) (h : s.mem.wf = true) :
    (s.emitByte n v).memRead (s.pdst + addrOf n) = v :=
  memRead_memWrite_same _ v h

theorem memRead_emitByte_other (s : State) {n : Nat} (v : Byte) {c : Address} (h : c ≠ s.pdst + addrOf n) :
    (s.emitByte n v).memRead c = s.memRead c :=
  memRead_memWrite_other s v h

theorem wf_rowPrefix {s : State} (p : Byte) (n : Nat) (h : s.mem.wf = true) :
    (rowPrefix s p n).mem.wf = true := by
  induction n with
  | zero =>
    rw [rowPrefix_zero]
    exact wf_memWrite (s := s.startRow.writeBytes s.pdst s.rowHeader) _ _
      (wf_writeBytes _ _ (by rwa [startRow_mem]))
  | succ n ih =>
    rw [rowPrefix_succ]
    exact wf_memWrite _ _ ih

/-- The cell at offset `n` from `a`, among the 65536. -/
theorem offset_toNat (a : Address) {n : Nat} (h : n < 65536) : (a + addrOf n - a).toNat = n := by
  rw [show a + addrOf n - a = addrOf n by bv_omega, BitVec.toNat_ofNat]
  omega

theorem ne_of_offset_lt {a c : Address} {n : Nat} (hn : n < 65536) (h : (c - a).toNat ≠ n) : c ≠ a + addrOf n := by
  rintro rfl
  exact h (offset_toNat a hn)

/-- A cell past the bytes written so far is as before the row. -/
theorem memRead_rowPrefix_outside (s : State) (p : Byte) (n : Nat) (hn : 6 + n ≤ 65536) (c : Address)
    (h : 6 + n ≤ (c - s.pdst).toNat) : (rowPrefix s p n).memRead c = s.memRead c := by
  induction n with
  | zero =>
    rw [rowPrefix_zero, memRead_emitByte_other _ _ (by simpa using ne_of_offset_lt (by omega) (by omega)),
      memRead_writeBytes_outside _ _ _ _ (by rw [length_rowHeader]; omega)]
    exact memRead_congr (startRow_mem s) c
  | succ n ih =>
    rw [rowPrefix_succ, memRead_emitByte_other _ _ (by simpa using ne_of_offset_lt (by omega) (by omega)),
      ih (by omega) (by omega)]

/-- A byte once written stays as it is for the rest of the row: no cell of a row is written twice. -/
theorem memRead_rowPrefix_stable (s : State) (p : Byte) {m n : Nat} (hmn : m ≤ n) (hn : 6 + n ≤ 65536) (c : Address)
    (h : (c - s.pdst).toNat < 6 + m) : (rowPrefix s p n).memRead c = (rowPrefix s p m).memRead c := by
  induction n, hmn using Nat.le_induction with
  | base => rfl
  | succ n hmn ih =>
    rw [rowPrefix_succ, memRead_emitByte_other _ _ (by simpa using ne_of_offset_lt (by omega) (by omega)),
      ih (by omega)]

/-- What a pixel read of packed byte `j` finds: the row's own byte where the row has already written the cell, else what
memory held before the row (20_memory.md R58). -/
theorem memRead_rowPrefix (s : State) (p : Byte) {j n : Nat} (hj : j ≤ n) (hn : 6 + n ≤ 65536) (c : Address) :
    (rowPrefix s p j).memRead c =
      if (c - s.pdst).toNat < 6 + j then (rowPrefix s p n).memRead c else s.memRead c := by
  split
  · rename_i h
    exact (memRead_rowPrefix_stable s p hj hn c h).symm
  · exact memRead_rowPrefix_outside s p j (by omega) c (by omega)

/-- Packed byte `j` stands at offset 6 + j (R115). -/
theorem memRead_rowPrefix_packed {s : State} (p : Byte) {j n : Nat} (hj : j < n) (hn : 6 + n ≤ 65536)
    (h : s.mem.wf = true) :
    (rowPrefix s p n).memRead (s.pdst + addrOf (6 + j)) = (rowPrefix s p j).packedByte p j := by
  rw [memRead_rowPrefix_stable s p (m := j + 1) hj hn _ (by rw [offset_toNat _ (by omega)]; omega), rowPrefix_succ]
  simpa using memRead_emitByte_same (s := rowPrefix s p j) (6 + j) _ (wf_rowPrefix p j h)

/-- The filter byte stands at offset 5 (R115 step b). -/
theorem memRead_rowPrefix_filter {s : State} (p : Byte) {n : Nat} (hn : 6 + n ≤ 65536) (h : s.mem.wf = true) :
    (rowPrefix s p n).memRead (s.pdst + addrOf 5) = filterByte := by
  rw [memRead_rowPrefix_stable s p (m := 0) (Nat.zero_le n) hn _ (by rw [offset_toNat _ (by omega)]; omega),
    rowPrefix_zero]
  simpa using memRead_emitByte_same (s := s.startRow.writeBytes s.pdst s.rowHeader) 5 filterByte
    (wf_writeBytes _ _ (by rwa [startRow_mem]))

/-- The header stands at offsets 0 to 4 (R113). -/
theorem memRead_rowPrefix_header {s : State} (p : Byte) {i n : Nat} (hi : i < s.rowHeader.length) (hn : 6 + n ≤ 65536)
    (h : s.mem.wf = true) : (rowPrefix s p n).memRead (s.pdst + addrOf i) = s.rowHeader[i] := by
  have h5 : i < 5 := hi
  rw [memRead_rowPrefix_stable s p (m := 0) (Nat.zero_le n) hn _ (by rw [offset_toNat _ (by omega)]; omega),
    rowPrefix_zero, memRead_emitByte_other _ _
      (by simpa using ne_of_offset_lt (a := s.pdst) (c := s.pdst + addrOf i) (n := 5) (by omega) (by rw [offset_toNat _ (by omega)]; omega)),
    memRead_writeBytes_inside (s := s.startRow) _ _ (by rwa [startRow_mem]) (by rw [length_rowHeader]; omega) i hi]

/-- What memory holds after a ROW that was not refused. -/
theorem memRead_execRow {s t : State} (hr : ¬ RefusalHolds .row s) (h : exec .row s = .next t) (c : Address) :
    t.memRead c = (rowPrefix s (Config.pad s.padIndex) s.rowBytes).memRead c := by
  rw [(exec_next_effect rfl hr h).2]
  simp only [effect, rowEffect_eq]
  rfl

/-- What R31 gives for a ROW that is not refused: a legal configuration, and rows left to emit. -/
theorem config_of_not_refused {s : State} (hi : ConfigInvariant s) (hr : ¬ RefusalHolds .row s) :
    (1 ≤ s.width.toNat ∧ 1 ≤ s.height.toNat ∧ s.bpp.toNat ∈ [1, 2, 4, 8]) ∧ s.rowcnt.toNat < s.height.toNat := by
  simp only [RefusalHolds, not_or, Bool.not_eq_false, Bool.not_eq_true] at hr
  obtain ⟨hc, -, hd⟩ := hr
  obtain ⟨hlegal, hle, hdone⟩ := hi.1 hc
  refine ⟨hlegal, Nat.lt_of_le_of_ne hle fun he => ?_⟩
  rw [hdone.mpr (BitVec.eq_of_toNat_eq he)] at hd
  nomatch hd

/-- The byte a pixel of the row is packed in is one of the row's bytes (R113, R114). -/
theorem packedIndex_lt {s : State} (hb : s.bpp.toNat ∈ [1, 2, 4, 8]) {j k : Nat}
    (h : j * (8 / s.bpp.toNat) + k < s.width.toNat) : j < s.rowBytes := by
  unfold State.rowBytes
  simp only [List.mem_cons, List.not_mem_nil, or_false] at hb
  rcases hb with hd | hd | hd | hd <;> rw [hd] at h ⊢ <;> omega

/-! The Adler pair (R116: the byte in memory and the byte checksummed are the same). -/

theorem adlerBytes_cons (s : State) (v : Byte) (bs : List Byte) :
    s.adlerBytes (v :: bs) = (s.adlerByte v).adlerBytes bs := rfl

theorem adlerBytes_append (s : State) (bs cs : List Byte) :
    s.adlerBytes (bs ++ cs) = (s.adlerBytes bs).adlerBytes cs := by
  simp [State.adlerBytes]

/-- Updating the pair changes the pair alone (R103). -/
theorem adlerBytes_eq (s : State) (bs : List Byte) :
    s.adlerBytes bs = { s with ada := (s.adlerBytes bs).ada, adb := (s.adlerBytes bs).adb } := by
  induction bs generalizing s with
  | nil => rfl
  | cons v bs ih =>
    rw [adlerBytes_cons, ih]
    rfl

theorem adlerPair_adlerByte (s : State) (v : Byte) : (s.adlerByte v).adlerPair = adlerPairStep s.adlerPair v := by
  have ha : (adlerA s.ada v).toNat = (s.ada.toNat + v.toNat) % 65521 := by
    simp only [adlerA, adlerModulus, BitVec.toNat_ofNat]
    omega
  have hb : (adlerB s.adb (adlerA s.ada v)).toNat = (s.adb.toNat + (s.ada.toNat + v.toNat) % 65521) % 65521 := by
    simp only [adlerB, ha, adlerModulus, BitVec.toNat_ofNat]
    omega
  simp [State.adlerPair, adlerPairStep, ha, hb]

/-- The accumulator is R102 on numbers, byte after byte. -/
theorem adlerPair_adlerBytes (s : State) (bs : List Byte) :
    (s.adlerBytes bs).adlerPair = adlerPairRun s.adlerPair bs := by
  induction bs generalizing s with
  | nil => rfl
  | cons v bs ih =>
    rw [adlerBytes_cons, ih, adlerPair_adlerByte]
    rfl

theorem adlerPair_emitByte (s : State) (n : Nat) (v : Byte) :
    (s.emitByte n v).adlerPair = adlerPairStep s.adlerPair v :=
  adlerPair_adlerByte (s.memWrite _ v) v

/-- While a row is written the pair runs over the filter byte and the packed bytes, from the pair the row starts with
(R115). -/
theorem adlerPair_rowPrefix (s : State) (p : Byte) (n : Nat) :
    (rowPrefix s p n).adlerPair =
      adlerPairRun s.startRow.adlerPair
        (filterByte :: (List.range n).map fun j => (rowPrefix s p j).packedByte p j) := by
  induction n with
  | zero =>
    rw [rowPrefix_zero, adlerPair_emitByte, writeBytes_eq]
    simp [adlerPairRun, State.adlerPair]
  | succ n ih =>
    rw [rowPrefix_succ, adlerPair_emitByte, ih, List.range_succ]
    simp [adlerPairRun]

/-! The bits of a packed byte. -/

/-- Fields of `b` bits put in their places of a byte, the first in the highest bits (R114, R115). -/
def packFields (b ppb : Nat) (f : Nat → Byte) : Byte :=
  (List.range ppb).foldl (fun v k => v ||| (f k <<< (8 - (k + 1) * b))) 0

theorem packFields_congr {b ppb : Nat} {f g : Nat → Byte} (h : ∀ k < ppb, f k = g k) :
    packFields b ppb f = packFields b ppb g := by
  unfold packFields
  refine List.foldl_ext _ _ _ fun v k hk => ?_
  rw [h k (List.mem_range.mp hk)]

theorem packedByte_eq_packFields (s : State) (p : Byte) (j : Nat) :
    s.packedByte p j =
      packFields s.bpp.toNat s.pixelsPerByte fun k => s.pixelField p (j * s.pixelsPerByte + k) k := rfl

theorem packFields_one : ∀ a b c d e f g h : BitVec 1,
    let v := packFields 1 8 fun k => ([a, b, c, d, e, f, g, h].getD k 0).setWidth 8
    ∀ k < 8, packedField v 1 k = ([a, b, c, d, e, f, g, h].getD k 0).toNat := by decide +kernel

theorem packFields_two : ∀ a b c d : BitVec 2,
    let v := packFields 2 4 fun k => ([a, b, c, d].getD k 0).setWidth 8
    ∀ k < 4, packedField v 2 k = ([a, b, c, d].getD k 0).toNat := by decide +kernel

theorem packFields_four : ∀ a b : BitVec 4,
    let v := packFields 4 2 fun k => ([a, b].getD k 0).setWidth 8
    ∀ k < 2, packedField v 4 k = ([a, b].getD k 0).toNat := by decide +kernel

theorem packFields_eight : ∀ a : BitVec 8,
    let v := packFields 8 1 fun k => ([a].getD k 0).setWidth 8
    ∀ k < 1, packedField v 8 k = ([a].getD k 0).toNat := by decide +kernel

/-- Field `k` of the packed byte is what was put in place `k`, at every legal depth. -/
theorem packedField_packFields {b : Nat} (hb : b ∈ [1, 2, 4, 8]) (f : Nat → Byte)
    (hf : ∀ k < 8 / b, (f k).toNat < 2 ^ b) (k : Nat) (hk : k < 8 / b) :
    packedField (packFields b (8 / b) f) b k = (f k).toNat := by
  have narrow : ∀ k < 8 / b, f k = ((f k).setWidth b).setWidth 8 := by
    intro k hk
    apply BitVec.eq_of_toNat_eq
    have := hf k hk
    rw [BitVec.toNat_setWidth, BitVec.toNat_setWidth, Nat.mod_eq_of_lt (hf k hk), Nat.mod_eq_of_lt (f k).isLt]
  have back : (f k).toNat = ((f k).setWidth b).toNat := by
    rw [BitVec.toNat_setWidth, Nat.mod_eq_of_lt (hf k hk)]
  rw [back]
  simp only [List.mem_cons, List.not_mem_nil, or_false] at hb
  rcases hb with rfl | rfl | rfl | rfl
  · have key := packFields_one ((f 0).setWidth 1) ((f 1).setWidth 1) ((f 2).setWidth 1) ((f 3).setWidth 1)
      ((f 4).setWidth 1) ((f 5).setWidth 1) ((f 6).setWidth 1) ((f 7).setWidth 1) k hk
    rw [packFields_congr (g := f)] at key
    · rw [key]
      clear key back
      rcases k with _ | _ | _ | _ | _ | _ | _ | _ | k <;> first | rfl | omega
    · intro k hk
      rw [narrow k hk]
      rcases k with _ | _ | _ | _ | _ | _ | _ | _ | k <;> first | omega | simp
  · have key := packFields_two ((f 0).setWidth 2) ((f 1).setWidth 2) ((f 2).setWidth 2) ((f 3).setWidth 2) k hk
    rw [packFields_congr (g := f)] at key
    · rw [key]
      clear key back
      rcases k with _ | _ | _ | _ | k <;> first | rfl | omega
    · intro k hk
      rw [narrow k hk]
      rcases k with _ | _ | _ | _ | k <;> first | omega | simp
  · have key := packFields_four ((f 0).setWidth 4) ((f 1).setWidth 4) k hk
    rw [packFields_congr (g := f)] at key
    · rw [key]
      clear key back
      rcases k with _ | _ | k <;> first | rfl | omega
    · intro k hk
      rw [narrow k hk]
      rcases k with _ | _ | k <;> first | omega | simp
  · have key := packFields_eight ((f 0).setWidth 8) k hk
    rw [packFields_congr (g := f)] at key
    · rw [key]
      clear key back
      rcases k with _ | k <;> first | rfl | omega
    · intro k hk
      rw [narrow k hk]
      rcases k with _ | k <;> first | omega | simp

/-- A pixel field has no more bits than its place. -/
theorem pixelField_lt (s : State) (p : Byte) (i k : Nat) : (s.pixelField p i k).toNat < 2 ^ s.bpp.toNat := by
  have hp : 1 ≤ 2 ^ s.bpp.toNat := Nat.one_le_two_pow
  have hm : s.pixelMask.toNat ≤ 2 ^ s.bpp.toNat - 1 := by
    simp only [State.pixelMask, BitVec.toNat_ofNat]
    exact Nat.mod_le _ _
  unfold State.pixelField
  split <;> rw [BitVec.toNat_and] <;> exact Nat.lt_of_le_of_lt (Nat.and_le_right.trans hm) (by omega)

/-- R114 and R115: field `k` of packed byte `j` is the field of pixel `j*ppb + k`. -/
theorem packedField_packedByte {s : State} (hb : s.bpp.toNat ∈ [1, 2, 4, 8]) (p : Byte) (j k : Nat)
    (hk : k < 8 / s.bpp.toNat) :
    packedField (s.packedByte p j) s.bpp.toNat k = (s.pixelField p (j * (8 / s.bpp.toNat) + k) k).toNat := by
  rw [packedByte_eq_packFields]
  exact packedField_packFields hb _ (fun k _ => pixelField_lt s p _ k) k hk

/-- A pixel within the row: the pixel byte below `2^BPP` (R114). -/
theorem pixelField_pixel {s : State} (p : Byte) {i : Nat} (k : Nat) (hi : i < s.width.toNat)
    (hb : s.bpp.toNat ∈ [1, 2, 4, 8]) :
    (s.pixelField p i k).toNat = (s.memRead (s.psrc + addrOf i)).toNat % 2 ^ s.bpp.toNat := by
  have hm : s.pixelMask.toNat = 2 ^ s.bpp.toNat - 1 := by
    simp only [List.mem_cons, List.not_mem_nil, or_false] at hb
    rcases hb with h | h | h | h <;> simp [State.pixelMask, h]
  rw [State.pixelField, if_pos hi, BitVec.toNat_and, hm, Nat.and_two_pow_sub_one_eq_mod]

/-- A place beyond the row: the draw's field at that place (R116). -/
theorem pixelField_padding {s : State} (p : Byte) {i k : Nat} (hi : ¬ i < s.width.toNat)
    (hb : s.bpp.toNat ∈ [1, 2, 4, 8]) : (s.pixelField p i k).toNat = packedField p s.bpp.toNat k := by
  have hm : s.pixelMask.toNat = 2 ^ s.bpp.toNat - 1 := by
    simp only [List.mem_cons, List.not_mem_nil, or_false] at hb
    rcases hb with h | h | h | h <;> simp [State.pixelMask, h]
  rw [State.pixelField, if_neg hi, BitVec.toNat_and, hm, Nat.and_two_pow_sub_one_eq_mod, BitVec.toNat_ushiftRight,
    Nat.shiftRight_eq_div_pow]
  rfl

end Sys2Proof.Machine
end

