-- ==== Sys2Proof/Laws/Checksum.lean ====
section
/-! SUPPORT. The checksum engines: the CRC loop and the Adler pair over sequences (40_crc32.md R94, 41_adler32.md R102,
R106). -/

namespace Sys2Proof.Machine

/-- `F(c, m1 ‖ m2) = F(F(c, m1), m2)` (R94 (c)). -/
theorem crcRun_append (c : Word32) (m n : List Byte) : crcRun c (m ++ n) = crcRun (crcRun c m) n := by
  simp [crcRun]

theorem adlerPairRun_append (p : Nat × Nat) (m n : List Byte) :
    adlerPairRun p (m ++ n) = adlerPairRun (adlerPairRun p m) n := by
  simp [adlerPairRun]

/-- Every update leaves both halves in 0 to 65520 (R102). -/
theorem adlerPairStep_le (p : Nat × Nat) (v : Byte) :
    (adlerPairStep p v).1 ≤ 65520 ∧ (adlerPairStep p v).2 ≤ 65520 := by
  simp only [adlerPairStep]
  omega

theorem adlerByte_reduced (s : State) (v : Byte) : AdlerReduced (s.adlerByte v) := by
  have h := adlerPairStep_le s.adlerPair v
  rw [← adlerPair_adlerByte] at h
  exact h

theorem adlerBytes_reduced {s : State} (bs : List Byte) (h : AdlerReduced s) : AdlerReduced (s.adlerBytes bs) := by
  induction bs generalizing s with
  | nil => exact h
  | cons v bs ih =>
    rw [adlerBytes_cons]
    exact ih (adlerByte_reduced s v)

/-- The Adler word is `ADB * 65536 + ADA` (R105). -/
theorem adlerWord_toNat (s : State) : s.adlerWord.toNat = s.adb.toNat * 65536 + s.ada.toNat := by
  rw [State.adlerWord, BitVec.toNat_append, Nat.shiftLeft_eq, Nat.mul_comm, ← Nat.two_pow_add_eq_or_of_lt s.ada.isLt,
    Nat.mul_comm]

/-- The bits one step of R91 moves are independent: shifting is linear over exclusive or. -/
theorem crcBitStep_xor (c d : Word32) : crcBitStep (c ^^^ d) = crcBitStep c ^^^ crcBitStep d := by
  have cancel : ∀ p x y : Word32, p ^^^ x ^^^ (p ^^^ y) = x ^^^ y := by
    intro p x y
    rw [BitVec.xor_comm p x, BitVec.xor_assoc, ← BitVec.xor_assoc p p, BitVec.xor_self, BitVec.zero_xor]
  unfold crcBitStep
  rw [BitVec.getLsbD_xor, BitVec.ushiftRight_xor_distrib]
  cases c.getLsbD 0 <;> cases d.getLsbD 0 <;> simp only [Bool.xor_self, Bool.false_xor, Bool.xor_false, if_true,
    Bool.false_eq_true, if_false, cancel] <;> ac_rfl

theorem crcBitSteps_xor (n : Nat) (c d : Word32) :
    crcBitSteps n (c ^^^ d) = crcBitSteps n c ^^^ crcBitSteps n d := by
  induction n generalizing c d with
  | zero => rfl
  | succ n ih => rw [crcBitSteps, crcBitStep_xor, ih, crcBitSteps, crcBitSteps]

end Sys2Proof.Machine
end

