-- ==== Sys2Proof/Laws/Encoding.lean ====
section
/-! SUPPORT. The fields of a command word (30_encoding.md R72) and what `decode` does with them. -/

namespace Sys2Proof

theorem commandWord_toNat (op : BitVec 8) (a b : Half) :
    (commandWord op a b).toNat = op.toNat * 2 ^ 32 + a.toNat * 2 ^ 16 + b.toNat := by
  have := a.isLt
  have := b.isLt
  have h1 : op.toNat <<< 16 ||| a.toNat = op.toNat * 2 ^ 16 + a.toNat := by
    rw [Nat.shiftLeft_eq, Nat.mul_comm, ← Nat.two_pow_add_eq_or_of_lt a.isLt]
  simp only [commandWord, BitVec.toNat_append, h1]
  rw [Nat.shiftLeft_eq, Nat.mul_comm, ← Nat.two_pow_add_eq_or_of_lt b.isLt]
  omega

theorem opField_toNat (cw : CommandWord) : (opField cw).toNat = cw.toNat / 2 ^ 32 := by
  have := cw.isLt
  simp only [opField, BitVec.extractLsb'_toNat, Nat.shiftRight_eq_div_pow]
  omega

theorem fieldA_toNat (cw : CommandWord) : (fieldA cw).toNat = cw.toNat / 2 ^ 16 % 2 ^ 16 := by
  simp only [fieldA, BitVec.extractLsb'_toNat, Nat.shiftRight_eq_div_pow]

theorem fieldB_toNat (cw : CommandWord) : (fieldB cw).toNat = cw.toNat % 2 ^ 16 := by
  simp only [fieldB, BitVec.extractLsb'_toNat, Nat.shiftRight_eq_div_pow]
  omega

@[simp] theorem opField_commandWord (op : BitVec 8) (a b : Half) : opField (commandWord op a b) = op := by
  apply BitVec.eq_of_toNat_eq
  have := a.isLt
  have := b.isLt
  rw [opField_toNat, commandWord_toNat]
  omega

@[simp] theorem fieldA_commandWord (op : BitVec 8) (a b : Half) : fieldA (commandWord op a b) = a := by
  apply BitVec.eq_of_toNat_eq
  have := a.isLt
  have := b.isLt
  rw [fieldA_toNat, commandWord_toNat]
  omega

@[simp] theorem fieldB_commandWord (op : BitVec 8) (a b : Half) : fieldB (commandWord op a b) = b := by
  apply BitVec.eq_of_toNat_eq
  have := b.isLt
  rw [fieldB_toNat, commandWord_toNat]
  omega

/-- A word is its three fields. -/
theorem commandWord_fields (cw : CommandWord) : commandWord (opField cw) (fieldA cw) (fieldB cw) = cw := by
  apply BitVec.eq_of_toNat_eq
  have := cw.isLt
  rw [commandWord_toNat, opField_toNat, fieldA_toNat, fieldB_toNat]
  omega

theorem height_of_dims (height width : BitVec 8) : (height ++ width : Half).extractLsb' 8 8 = height := by
  rw [BitVec.extractLsb'_append_eq_left]

theorem width_of_dims (height width : BitVec 8) : (height ++ width : Half).extractLsb' 0 8 = width := by
  rw [BitVec.extractLsb'_append_eq_right]

theorem depth_of_operand (bpp : BitVec 4) : (0#12 ++ bpp : Half).extractLsb' 0 4 = bpp := by
  rw [BitVec.extractLsb'_append_eq_right]

theorem reserved_of_operand (bpp : BitVec 4) : (0#12 ++ bpp : Half).extractLsb' 4 12 = 0#12 := by
  rw [BitVec.extractLsb'_append_eq_left]

/-- R72: a word against a mask, field by field. -/
theorem commandWord_and (op mop : BitVec 8) (a ma b mb : Half) :
    commandWord op a b &&& commandWord mop ma mb = commandWord (op &&& mop) (a &&& ma) (b &&& mb) := by
  have h1 : (op ++ a) &&& (mop ++ ma) = (op &&& mop) ++ (a &&& ma) := BitVec.and_append
  have h2 : (op ++ a ++ b) &&& (mop ++ ma ++ mb) = ((op ++ a) &&& (mop ++ ma)) ++ (b &&& mb) := BitVec.and_append
  rw [h1] at h2
  exact h2

end Sys2Proof
end

