-- ==== Sys2Proof/Laws/PerInstr.lean ====
section
/-! SUPPORT. Statements made per instruction: the encoding of each command has the bits of its row of the opcode map
(30_encoding.md R74). -/

namespace Sys2Proof.Laws.MatchesRow

/-- `CW & mask = match` for the command's own row. -/
def Statement (i : Instr) : Prop := encode i &&& (opcodeRow i).mask = (opcodeRow i).pattern

theorem crc32 (addr len : Half) : Statement (.crc32 addr len) := by
  show commandWord 0x01 addr len &&& commandWord 0xFF 0 0 = commandWord 0x01 0 0
  rw [commandWord_and]
  simp

theorem crcst : Statement .crcst := by
  show commandWord 0x02 0 0 &&& commandWord 0xFF 0xFFFF 0xFFFF = commandWord 0x02 0 0
  rw [commandWord_and]
  rfl

theorem adrst : Statement .adrst := by
  show commandWord 0x10 0 0 &&& commandWord 0xFF 0xFFFF 0xFFFF = commandWord 0x10 0 0
  rw [commandWord_and]
  rfl

theorem adupd (addr len : Half) : Statement (.adupd addr len) := by
  show commandWord 0x11 addr len &&& commandWord 0xFF 0 0 = commandWord 0x11 0 0
  rw [commandWord_and]
  simp

theorem adst : Statement .adst := by
  show commandWord 0x12 0 0 &&& commandWord 0xFF 0xFFFF 0xFFFF = commandWord 0x12 0 0
  rw [commandWord_and]
  rfl

theorem cfg (width height : BitVec 8) (bpp : BitVec 4) : Statement (.cfg width height bpp) := by
  show commandWord 0x20 (height ++ width) ((0 : BitVec 12) ++ bpp) &&&
    commandWord 0xFF 0 ((0xFFF : BitVec 12) ++ (0 : BitVec 4)) = commandWord 0x20 0 0
  rw [commandWord_and, BitVec.and_append]
  simp

theorem bind (src dst : Half) : Statement (.bind src dst) := by
  show commandWord 0x21 src dst &&& commandWord 0xFF 0 0 = commandWord 0x21 0 0
  rw [commandWord_and]
  simp

theorem row : Statement .row := by
  show commandWord 0x22 0 0 &&& commandWord 0xFF 0xFFFF 0xFFFF = commandWord 0x22 0 0
  rw [commandWord_and]
  rfl

theorem rd (reg : Half) : Statement (.rd reg) := by
  show commandWord 0x30 reg 0 &&& commandWord 0xFF 0 0xFFFF = commandWord 0x30 0 0
  rw [commandWord_and]
  simp

end Sys2Proof.Laws.MatchesRow
end

