-- ==== Sys2Proof/Laws/Run.lean ====
section
/-! SUPPORT. Runs: the induction over steps, once. -/

namespace Sys2Proof.Machine

theorem run_zero (M : Host.Core) (u : M.State) : M.run 0 u = .next u := rfl

theorem run_next (M : Host.Core) {u v : M.State} (n : Nat) (h : M.step u = .next v) :
    M.run (n + 1) u = M.run n v := by
  rw [Host.Core.run.eq_def]
  dsimp only
  rw [h]

theorem run_succ (M : Host.Core) {u t : M.State} {n : Nat} (h : M.run (n + 1) u = .next t) :
    ∃ v, M.step u = .next v ∧ M.run n v = .next t := by
  rw [Host.Core.run.eq_def] at h
  dsimp only at h
  cases hv : M.step u with
  | next v => exact ⟨v, rfl, by rwa [hv] at h⟩
  | fault r =>
    rw [hv] at h
    nomatch h
  | refused r =>
    rw [hv] at h
    nomatch h

/-- What every step keeps holds after every run. -/
theorem run_keeps {P : State → Prop} (hstep : ∀ s t : State, P s → step s = .next t → P t) (n : Nat) (s t : State)
    (hs : P s) (h : Host.Core.run core n s = .next t) : P t := by
  induction n generalizing s with
  | zero => exact Host.Outcome.next.inj h ▸ hs
  | succ n ih =>
    obtain ⟨v, hv, ht⟩ := run_succ core h
    exact ih v (hstep s v hs hv) ht

end Sys2Proof.Machine
end

