-- ==== Sys2Proof/Tests/Slice0.lean ====
section
/-! SUPPORT. The model's own tests: illegal terms refused, words written out from 30_encoding.md R72 to R74, single steps
with results from 95_test_vectors.md, and for every statement with hypotheses a state and operands that meet them. -/

namespace Sys2Proof.Machine.Tests

-- One test after another: many checks at once open many threads.
set_option Elab.async false

/-! Helpers. -/

/-- What a next state shows; `none` on a fault or a refusal. -/
def after {α : Type} (r : Result) (view : State → α) : Option α :=
  match r with
  | .next t => some (view t)
  | _ => none

/-- The cause a word is rejected with. -/
def causeOf (cw : CommandWord) : Option CommandErrorCause :=
  match decodeLegal cw with
  | .error c => some c
  | .ok _ => none

/-- The command a word decodes to. -/
def commandOf (cw : CommandWord) : Option Instr := (decode cw).toOption

/-- "Reset draw X" of 95_test_vectors.md. -/
def drawX : ResetDraw := ⟨0xAAAA, 0x5555, 0xDEADBEEF, 0xCAFEF00D, 0x77, 0x66, 3, 0xFFFF, 0xFFFE⟩

/-- The block after reset with draw X, over a memory. -/
def fromX (m : Memory) : State := { State.reset with mem := m }.resetBlock drawX

/-- `fromX` configured and bound. -/
def ready (w h : BitVec 8) (d : BitVec 4) (src dst : Address) (m : Memory) : State :=
  { fromX m with
    width := w, height := h, bpp := d, rowcnt := 0, psrc := src, pdst := dst, status := ⟨true, true, false, false⟩ }

/-! Ill-formed terms (R74). -/

theorem test_wf_width_zero : (Instr.cfg 0 2 2).wellFormed = false := by decide
theorem test_wf_height_zero : (Instr.cfg 3 0 2).wellFormed = false := by decide
theorem test_wf_depth_three : (Instr.cfg 3 2 3).wellFormed = false := by decide
theorem test_wf_depth_zero : (Instr.cfg 3 2 0).wellFormed = false := by decide
theorem test_wf_index_nine : (Instr.rd 9).wellFormed = false := by decide
theorem test_wf_legal : (Instr.cfg 255 1 8).wellFormed = true ∧ (Instr.rd 8).wellFormed = true := by decide

/-! Words, bit by bit: OP, then A, then B (R72, R74). -/

theorem test_decode_crc32 :
    commandOf 0b00000001_0000000100000000_0000000000000100 = some (.crc32 0x0100 4) := by decide
theorem test_decode_crcst : commandOf 0b00000010_0000000000000000_0000000000000000 = some .crcst := by decide
theorem test_decode_adrst : commandOf 0b00010000_0000000000000000_0000000000000000 = some .adrst := by decide
theorem test_decode_adupd :
    commandOf 0b00010001_0000001100000000_0000000000001001 = some (.adupd 0x0300 9) := by decide
theorem test_decode_adst : commandOf 0b00010010_0000000000000000_0000000000000000 = some .adst := by decide
theorem test_decode_cfg : commandOf 0b00100000_0000001000000011_0000000000000010 = some (.cfg 3 2 2) := by decide
theorem test_decode_bind :
    commandOf 0b00100001_0001000000000000_0010000000000000 = some (.bind 0x1000 0x2000) := by decide
theorem test_decode_row : commandOf 0b00100010_0000000000000000_0000000000000000 = some .row := by decide
theorem test_decode_rd : commandOf 0b00110000_0000000000000011_0000000000000000 = some (.rd 3) := by decide
theorem test_decode_table_word : decodeTableWord 40 0x2110002000 = some (.bind 0x1000 0x2000) := by decide

/-- V24. -/
theorem test_illegal_opcodes :
    [0x0000000000, 0xFFFFFFFFFF, 0x0300000000, 0x2300000000].map causeOf =
      List.replicate 4 (some .badOpcode) := by decide

/-- V24. -/
theorem test_illegal_reserved :
    [0x2200010000, 0x1000000001, 0x0200000100, 0x1200010000, 0x3000000001, 0x2002030012].map causeOf =
      List.replicate 6 (some .reservedNonzero) := by decide

/-- V24. -/
theorem test_illegal_operands :
    [0x3000090000, 0x2002030003, 0x2002000002, 0x2000030002].map causeOf =
      List.replicate 4 (some .badOperand) := by decide

/-! The CRC engine. -/

/-- The tag bytes of V3. -/
def iend : Memory := [(0x0100, 0x49), (0x0101, 0x45), (0x0102, 0x4E), (0x0103, 0x44)]

/-- V3, as a step from the command port. -/
theorem test_crc32_iend :
    after (step ((fromX iend).withFetchWord 40 0x0101000004)) (fun t => (t.crcr, t.ret, t.received)) =
      some (0xAE426082, 0xAE426082, [.response 0xAE426082]) := by decide +kernel

/-- V5: the buffer wraps. -/
theorem test_crc32_wraps :
    after (exec (.crc32 0xFFFE 4) (fromX [(0, 0x4E), (1, 0x44), (0xFFFE, 0x49), (0xFFFF, 0x45)]))
      (fun t => (t.ret, t.psrc, t.pdst)) = some (0xAE426082, 0xAAAA, 0x5555) := by decide +kernel

/-- V6 (b): the store wraps. -/
theorem test_crcst_wraps :
    after (exec .crcst { ready 1 1 1 0 0xFFFE [] with crcr := 0x11223344 })
      (fun t => (t.buffer 0xFFFE 4, t.pdst, t.ret)) = some ([0x11, 0x22, 0x33, 0x44], 0x0002, 4) := by decide +kernel

/-- V6 (c): refused while unbound. -/
theorem test_crcst_unbound :
    after (exec .crcst (fromX [])) (fun t => (t.ret, t.mem, t.pdst, t.status.ill)) = some (0, [], 0x5555, false) := by
  decide +kernel

/-! The Adler accumulator. -/

/-- V7. -/
theorem test_adrst : after (exec .adrst (fromX [])) (fun t => (t.ada, t.adb, t.ret)) = some (1, 0, 1) := by decide

/-- The nine bytes of V8. -/
def wikipedia : Memory :=
  [(0x0300, 0x57), (0x0301, 0x69), (0x0302, 0x6B), (0x0303, 0x69), (0x0304, 0x70), (0x0305, 0x65), (0x0306, 0x64),
   (0x0307, 0x69), (0x0308, 0x61)]

/-- V8. -/
theorem test_adupd_wikipedia :
    after (exec (.adupd 0x0300 9) { fromX wikipedia with ada := 1, adb := 0 }) (fun t => (t.ret, t.ada, t.adb)) =
      some (0x11E60398, 0x0398, 0x11E6) := by decide +kernel

/-- V9: an unreduced draw needs a true remainder. -/
theorem test_adupd_unreduced :
    after (exec (.adupd 0 1) { fromX [(0, 0xFF)] with ada := 0xFFFF, adb := 0xFFFF }) (fun t => (t.ada, t.adb)) =
      some (269, 283) := by decide +kernel

/-- V12. -/
theorem test_adst :
    after (exec .adst { ready 1 1 1 0 0x0400 [] with ada := 0x0398, adb := 0x11E6 })
      (fun t => (t.mem, t.pdst, t.ret)) =
      some ([(0x0400, 0x11), (0x0401, 0xE6), (0x0402, 0x03), (0x0403, 0x98)], 0x0404, 4) := by decide +kernel

/-! The row serializer. -/

/-- V13: the largest configuration. -/
theorem test_cfg_legal :
    after (exec (.cfg 255 255 8) (fromX [])) (fun t => (t.width, t.height, t.bpp, t.rowcnt, t.status.toWord, t.ret)) =
      some (255, 255, 8, 0, 1, 1) := by decide +kernel

/-- V13: depth 3 is a command error, and the old configuration stays. -/
theorem test_cfg_depth_three :
    after (exec (.cfg 3 2 3) (fromX [])) (fun t => (t.width, t.height, t.bpp, t.status.toWord, t.ret)) =
      some (0x77, 0x66, 3, 8, 0) := by decide +kernel

/-- V14. -/
theorem test_bind :
    after (exec (.bind 0xFFFF 0x0000) (fromX [])) (fun t => (t.psrc, t.pdst, t.status.toWord, t.ret)) =
      some (0xFFFF, 0x0000, 2, 1) := by decide +kernel

/-- The nine pixels of V15. -/
def ninePixels : Memory := [(0x1000, 1), (0x1002, 1), (0x1003, 1), (0x1006, 1), (0x1008, 1)]

/-- V15 with draw A5: padding under the last pixel, first and last row at once. -/
theorem test_row_padding :
    after (execRowWith 0xA5 (ready 9 1 1 0x1000 0x2000 ninePixels))
      (fun t => (t.buffer 0x2000 9, t.ada, t.adb, t.psrc, t.pdst, t.rowcnt, t.status.toWord, t.ret)) =
      some ([0x01, 0x03, 0x00, 0xFC, 0xFF, 0x00, 0xB2, 0xA5, 0x00], 0x0158, 0x020C, 0x1009, 0x2008, 1, 7, 8) := by
  decide +kernel

/-- V21 (c): the row's own header is read back as pixels. -/
theorem test_row_overlap :
    after (exec .row (ready 4 1 8 0xFFFE 0xFFFC [(0, 7), (1, 6), (0xFFFE, 9), (0xFFFF, 8)]))
      (fun t => (t.buffer 0xFFFC 10, t.ada, t.adb, t.psrc, t.pdst)) =
      some ([0x01, 0x05, 0x00, 0xFA, 0xFF, 0x00, 0x00, 0xFA, 0xFF, 0x00], 0x01FA, 0x04F1, 0x0002, 0x0006) := by
  decide +kernel

/-! Register access. -/

/-- V23: STATUS of a configured and bound block; only RET changes. -/
theorem test_rd_status :
    after (step ((ready 3 2 2 0x1003 0x2007 []).withFetchWord 40 0x3000000000)) (fun t => (t.ret, t.psrc)) =
      some (3, 0x1003) := by decide +kernel

/-- V23: DIMS, and index 9. -/
theorem test_rd_dims :
    after (exec (.rd 6) (ready 3 2 2 0 0 [])) (fun t => t.ret) = some 0x00000203 ∧
    after (exec (.rd 9) (ready 3 2 2 0 0 [])) (fun t => (t.ret, t.status.toWord)) = some (0, 0x0B) := by
  decide +kernel

/-! The host's moves. -/

/-- V24, R165: a ROW word with A = 1 before any CFG is a command error, not a refusal. -/
theorem test_illegal_row_word :
    after (step ((fromX []).withFetchWord 40 0x2200010000)) (fun t => (t.status.toWord, t.ret, t.mem)) =
      some (8, 0, []) := by decide +kernel

/-- U3: a launch that does not admit the write faults the command. -/
theorem test_not_admitted :
    exec .crcst { ready 1 1 1 0 0x2000 [] with memAdmit := [⟨.write, 0x2003, 0x20FF⟩] } = .fault .accessNotAdmitted := by
  rfl

/-- R80: a value that fits is assembled, one that does not is refused; a comment is dropped. -/
theorem test_assembler :
    (asmLine "CFG 0, 0xFF, 15 ; illegal, but it fits".toList).toOption = some [.cfg 0 255 15] ∧
    (asmLine "RD 65536".toList).toOption = none := by decide +kernel

/-! Witnesses: concrete states and operands that meet the hypotheses of each statement. -/

/-- Three pixels at 0x1000, two rows, depth 2, bound to 0x2000 (V16). -/
def v16 : State := ready 3 2 2 0x1000 0x2000 [(0x1000, 1), (0x1001, 2), (0x1002, 3)]

/-- The state of `v16` with moves of the host. -/
def v16Host (moves : List HostAction) : State := { v16 with host := moves }

theorem v16_admits (i : Instr) : AccessesAdmitted i v16 := (admitted_iff i v16).mp (admitted_of_admitsEverything rfl i)

theorem v16_config : ConfigInvariant v16 := by decide

theorem v16_not_refused : ¬ RefusalHolds .row v16 := by
  rintro (h | h | h) <;> revert h <;> decide

theorem v16_row_answers : ∃ t, exec .row v16 = .next t := ⟨_, exec_completes rfl v16_not_refused (v16_admits .row)⟩

theorem witness_ResetLeavesFlagsZeroAndMemory :
    (v16Host [.reset, .load 5]).host = .reset :: [.load 5] := rfl

theorem witness_StepKeepsConfigInvariant :
    ConfigInvariant (v16Host [.issue 0x2001010001]) ∧
      ∃ t, step (v16Host [.issue 0x2001010001]) = .next t := ⟨by decide, _, rfl⟩

theorem witness_StepKeepsMemoryCanonical :
    (v16Host [.store 0xFFFF 7]).mem.wf = true ∧ ∃ t, step (v16Host [.store 0xFFFF 7]) = .next t := ⟨by decide, _, rfl⟩

theorem witness_CanonicalMemoriesReadingAlikeAreEqual :
    Memory.wf (Memory.write (Memory.write [] 9 5) 65535 3) = true ∧
    Memory.wf (Memory.write (Memory.write [] 65535 3) 9 5) = true ∧
    ∀ a : Address, Memory.read (Memory.write (Memory.write [] 9 5) 65535 3) a.toNat =
      Memory.read (Memory.write (Memory.write [] 65535 3) 9 5) a.toNat := ⟨by decide, by decide, fun _ => rfl⟩

theorem witness_StatesReachableFromResetMeetConfigInvariant :
    ∃ t, Host.Core.run core 2 ((v16Host [.issue 0x2001010001, .issue 0x2110002000]).resetBlock drawX) = .next t :=
  ⟨_, rfl⟩

theorem witness_FlagsFallOnlyByReset :
    ¬ HostResets (v16Host [.issue 0x2001010001, .reset]) ∧
      ∃ t, step (v16Host [.issue 0x2001010001, .reset]) = .next t := ⟨by decide, _, rfl⟩

theorem witness_AdlerPairStaysReduced_command :
    AdlerReduced { v16 with ada := 65520, adb := 65520 } ∧
      ∃ t, exec (.adupd 0x1000 3) { v16 with ada := 65520, adb := 65520 } = .next t := ⟨by decide, _, rfl⟩

theorem witness_AdlerPairStaysReduced_adrst : ∃ t, exec .adrst v16 = .next t := ⟨_, rfl⟩

theorem witness_AdlerPairStaysReduced_row : ¬ RefusalHolds .row v16 ∧ ∃ t, exec .row v16 = .next t :=
  ⟨v16_not_refused, v16_row_answers⟩

theorem witness_StepRunsTheDecodedCommand :
    (v16Host [.issue 0x3000030000]).host = .issue 0x3000030000 :: [] ∧ decode 0x3000030000 = .ok (.rd 3) := ⟨rfl, rfl⟩

theorem witness_StepRuns_illegal :
    (v16Host [.issue 0xFFFFFFFFFF]).host = .issue 0xFFFFFFFFFF :: [] ∧ IllegalWord 0xFFFFFFFFFF :=
  ⟨rfl, .inl (by unfold UnassignedOpcode; decide)⟩

theorem witness_IdleStepKeepsTheState : v16.host = [] := rfl

theorem witness_HostStoresAndLoads_store :
    (v16Host [.store 0xFFFF 7]).host = .store 0xFFFF 7 :: [] ∧ (v16Host [.store 0xFFFF 7]).mem.wf = true :=
  ⟨rfl, by decide⟩

theorem witness_HostStoresAndLoads_load : (v16Host [.load 0]).host = .load 0 :: [] := rfl

theorem witness_EncodeOfDecodeIsTheWord : decode 0x01FFFFFFFF = .ok (.crc32 0xFFFF 0xFFFF) := rfl

theorem witness_IllegalWords_opcode : IllegalWord 0xFFFFFFFFFF := .inl (by unfold UnassignedOpcode; decide)

theorem witness_IllegalWords_reserved : IllegalWord 0x2002030012 :=
  .inr (.inl (by unfold ReservedFieldNonzero; decide))

theorem witness_IllegalWords_operand : IllegalWord 0x3000090000 := .inr (.inr (by unfold UnsupportedOperand; decide))

theorem witness_IllegalWords_legal : ¬ IllegalWord 0x3000080000 := by
  unfold IllegalWord UnassignedOpcode ReservedFieldNonzero UnsupportedOperand
  decide

theorem witness_CausesAreTestedInOrder_both :
    ReservedFieldNonzero 0x2000000013 ∧ UnsupportedOperand 0x2000000013 := by
  unfold ReservedFieldNonzero UnsupportedOperand
  decide

theorem witness_CausesAreTestedInOrder_effect :
    decodeLegal 0x2000000013 = .error .reservedNonzero ∧ decodeLegal 0x3000080000 = .ok (.rd 8) := ⟨rfl, rfl⟩

theorem witness_DecodeFollowsTheOpcodeMap :
    decode 0x2002030003 = .ok (.cfg 3 2 3) ∧ opcodeRow (.cfg 0 0 0) ∈ opcodeTable := ⟨rfl, by decide⟩

theorem witness_EveryCommandEnds_error : AdmitsEverything v16 ∧ IllegalWord 0x3000090000 :=
  ⟨rfl, witness_IllegalWords_operand⟩

theorem witness_EveryCommandEnds_refused :
    AdmitsEverything (fromX []) ∧ Instr.row.wellFormed = true ∧ encode .row = 0x2200000000 ∧
      RefusalHolds .row (fromX []) := ⟨rfl, rfl, rfl, .inl rfl⟩

theorem witness_EveryCommandEnds_completes :
    AdmitsEverything v16 ∧ (Instr.rd 8).wellFormed = true ∧ encode (.rd 8) = 0x3000080000 ∧
      ¬ RefusalHolds (.rd 8) v16 := ⟨rfl, rfl, rfl, id⟩

theorem witness_RefusalsChangeRetAlone :
    (fromX []).status.bound = false ∧ (fromX []).status.cfgd = false ∧
      ({ v16 with status := ⟨true, true, true, false⟩ } : State).status.done = true := ⟨rfl, rfl, rfl⟩

theorem witness_OnlyTheNamedCellsAreWritten :
    (∃ t, exec .row v16 = .next t) ∧ ¬ InSpan v16.pdst (bytesWritten .row v16) 0x2007 ∧
      ¬ InSpan v16.pdst (bytesWritten .row v16) 0x1FFF := ⟨v16_row_answers, by decide, by decide⟩

theorem witness_RegistersAreWritten : (∃ t, exec .row v16 = .next t) ∧ ∃ t, exec (.cfg 0 1 1) v16 = .next t :=
  ⟨v16_row_answers, _, rfl⟩

theorem witness_CommandsFaultExactly :
    ¬ AccessesAdmitted .crcst { v16 with memAdmit := [⟨.write, 0x2003, 0x20FF⟩] } := by
  rw [← admitted_iff]
  decide

theorem witness_MemoryReadsTheLatestWrite : v16.mem.wf = true ∧ ((0xFFFF : Address) ≠ 0) := by decide

theorem witness_Crc32 : AccessesAdmitted (.crc32 0xFFFF 65535) v16 := v16_admits _

theorem witness_CrcDependsOnTheBytesAlone :
    AccessesAdmitted (.crc32 0x1000 2) v16 ∧ AccessesAdmitted (.crc32 0x1000 2) { v16 with crcr := 1 } ∧
      ∀ i < (2 : Half).toNat, v16.memRead (0x1000 + BitVec.ofNat 16 i) =
        ({ v16 with crcr := 1 } : State).memRead (0x1000 + BitVec.ofNat 16 i) :=
  ⟨v16_admits _, (admitted_iff _ _).mp (admitted_of_admitsEverything rfl _), fun _ _ => rfl⟩

theorem witness_CrcstStoresCrcr :
    v16.mem.wf = true ∧ v16.status.bound = true ∧ AccessesAdmitted .crcst v16 := ⟨by decide, rfl, v16_admits _⟩

theorem witness_Stores_unbound : (fromX []).status.bound = false := rfl

theorem witness_ChunkIsFollowedByItsCrc :
    let s := { v16 with pdst := 0x1000 + 65532 }
    s.mem.wf = true ∧ AdmitsEverything s ∧ s.status.bound = true ∧ s.pdst = 0x1000 + 65532 ∧
      (65532 : Half).toNat + 4 ≤ 65536 := ⟨by decide, rfl, rfl, rfl, by decide⟩

theorem witness_Adupd : AccessesAdmitted (.adupd 0xFFFF 65535) v16 := v16_admits _

theorem witness_AdupdContinuesTheChecksum :
    (65534 : Half).toNat + (1 : Half).toNat ≤ 65535 ∧ AccessesAdmitted (.adupd 0x1000 (65534 + 1)) v16 :=
  ⟨by decide, v16_admits _⟩

/-- `v16` with its first and third pixel exchanged. -/
def v16Exchanged : State := { v16 with mem := [(0x1000, 3), (0x1001, 2), (0x1002, 1)] }

theorem witness_AdlerSeesAnExchange :
    0 + 2 < (3 : Half).toNat ∧ AccessesAdmitted (.adupd 0x1000 3) v16 ∧ AccessesAdmitted (.adupd 0x1000 3) v16Exchanged ∧
      v16Exchanged.memRead (0x1000 + BitVec.ofNat 16 0) = v16.memRead (0x1000 + BitVec.ofNat 16 2) ∧
      v16Exchanged.memRead (0x1000 + BitVec.ofNat 16 2) = v16.memRead (0x1000 + BitVec.ofNat 16 0) ∧
      (∀ j < (3 : Half).toNat, j ≠ 0 → j ≠ 0 + 2 →
        v16Exchanged.memRead (0x1000 + BitVec.ofNat 16 j) = v16.memRead (0x1000 + BitVec.ofNat 16 j)) ∧
      v16.memRead (0x1000 + BitVec.ofNat 16 0) ≠ v16.memRead (0x1000 + BitVec.ofNat 16 2) ∧ ¬ 65521 ∣ 2 := by
  refine ⟨by decide, v16_admits _, (admitted_iff _ _).mp (admitted_of_admitsEverything rfl _), ?_⟩
  decide

theorem witness_AdlerCheckValues :
    AdmitsEverything (fromX wikipedia) ∧
      (fromX wikipedia).buffer 0x0300 9 = [0x57, 0x69, 0x6B, 0x69, 0x70, 0x65, 0x64, 0x69, 0x61] ∧
      (fromX wikipedia).buffer 0 1 = [0x00] ∧ (fromX wikipedia).buffer 0x0308 1 = [0x61] ∧
      (fromX [(0xFFFF, 0x61), (0, 0x62), (1, 0x63)]).buffer 0xFFFF 3 = [0x61, 0x62, 0x63] := by decide

theorem witness_AdstStoresTheAdlerWord :
    v16.mem.wf = true ∧ v16.status.bound = true ∧ AccessesAdmitted .adst v16 := ⟨by decide, rfl, v16_admits _⟩

theorem witness_Cfg_legal : 1 ≤ (255 : BitVec 8).toNat ∧ 1 ≤ (1 : BitVec 8).toNat ∧ (8 : BitVec 4).toNat ∈ [1, 2, 4, 8] := by
  decide

theorem witness_Cfg_illegal : (0 : BitVec 8).toNat = 0 ∧ (15 : BitVec 4).toNat ∉ [1, 2, 4, 8] := by decide

theorem witness_Cfg_reserved : opNat 0x2002030012 = 0x20 ∧ bNat 0x2002030012 / 16 ≠ 0 := by decide

theorem witness_RowAdvancesTheRegisters :
    ConfigInvariant v16 ∧ v16.status.cfgd = true ∧ v16.status.bound = true ∧ v16.status.done = false ∧
      AccessesAdmitted .row v16 := ⟨v16_config, rfl, rfl, rfl, v16_admits _⟩

theorem witness_Row :
    v16.mem.wf = true ∧ ConfigInvariant v16 ∧ ¬ RefusalHolds .row v16 ∧ ∃ t, exec .row v16 = .next t :=
  ⟨by decide, v16_config, v16_not_refused, v16_row_answers⟩

/-- Pixel 2, the last, in byte 0, its cell not written by the row. -/
theorem witness_RowPacksThePixels_apart :
    2 < v16.width.toNat ∧ 2 < 8 / v16.bpp.toNat ∧ 2 = 0 * (8 / v16.bpp.toNat) + 2 ∧
      ¬ InSpan v16.pdst (6 + 0) (v16.psrc + BitVec.ofNat 16 2) := by decide

/-- A pixel under the row's own header. -/
theorem witness_RowPacksThePixels_overlap :
    let s := { v16 with psrc := 0x2003 }
    (s.mem.wf = true ∧ ConfigInvariant s ∧ ¬ RefusalHolds .row s ∧ ∃ t, exec .row s = .next t) ∧
      InSpan s.pdst (6 + 0) (s.psrc + BitVec.ofNat 16 2) := by
  refine ⟨⟨by decide, by decide, v16_not_refused, _, exec_completes rfl v16_not_refused ?_⟩, by decide⟩
  exact (admitted_iff _ _).mp (admitted_of_admitsEverything rfl _)

/-- Place 3 of byte 0 lies beyond WIDTH = 3. -/
theorem witness_RowPaddingIsADraw :
    0 < rowBytesOf v16.width.toNat v16.bpp.toNat ∧ 3 < 8 / v16.bpp.toNat ∧
      v16.width.toNat ≤ 0 * (8 / v16.bpp.toNat) + 3 := by decide

theorem witness_PaddingDrawReachesOnlyThePadding :
    (∃ t, exec .row v16 = .next t) ∧ ∃ u, exec .row { v16 with padIndex := 1 } = .next u :=
  ⟨v16_row_answers, _, exec_completes (i := .row) (s := { v16 with padIndex := 1 }) rfl v16_not_refused
    ((admitted_iff _ _).mp (admitted_of_admitsEverything rfl _))⟩

theorem witness_Image :
    v16.mem.wf = true ∧ ConfigInvariant v16 ∧ AdmitsEverything v16 ∧ v16.status.cfgd = true ∧
      v16.status.bound = true ∧ v16.rowcnt = 0 := ⟨by decide, v16_config, rfl, rfl, rfl, rfl⟩

theorem witness_RdReadsTheRegisterByIndex : 8 < (9 : Half).toNat ∧ 8 < (0xFFFF : Half).toNat := by decide

theorem witness_Rd_reserved : opNat 0x3000000001 = 0x30 ∧ bNat 0x3000000001 ≠ 0 := by decide

theorem witness_AssemblerTakesOperandsThatFit :
    parseNumber "65535".toList = some 65535 ∧ parseNumber "0xFF".toList = some 255 ∧ parseNumber "15".toList = some 15 ∧
      parseNumber "65536".toList = some 65536 ∧ parseNumber "0".toList = some 0 := by decide +kernel

end Sys2Proof.Machine.Tests
end

section
/-! PROOFS. The statements of the family 10_state.md: what each command, each move of the host and reset leave in the
registers, the configuration invariant R31, the sticky flags, the range of the Adler pair (R28). -/

namespace Sys2Proof.Machine

/-! The effect of each command as the whole list of the fields it changes. -/

theorem effect_crc32 (addr len : Half) (s : State) :
    effect (.crc32 addr len) s =
      { s with
        crcr := crcOf (s.buffer addr len.toNat)
        ret := crcOf (s.buffer addr len.toNat)
        received := s.responses (crcOf (s.buffer addr len.toNat)) } := rfl

theorem effect_crcst (s : State) :
    effect .crcst s =
      { s with
        mem := (s.writeBytes s.pdst (bigEndian s.crcr)).mem
        pdst := s.pdst + 4
        ret := 4
        received := s.responses 4 } :=
  storeAtCursor_eq s s.crcr

theorem effect_adrst (s : State) :
    effect .adrst s = { s with ada := 1, adb := 0, ret := 1, received := s.responses 1 } := rfl

theorem effect_adupd (addr len : Half) (s : State) :
    effect (.adupd addr len) s =
      { s with
        ada := (s.adlerBytes (s.buffer addr len.toNat)).ada
        adb := (s.adlerBytes (s.buffer addr len.toNat)).adb
        ret := (s.adlerBytes (s.buffer addr len.toNat)).adlerWord
        received := s.responses (s.adlerBytes (s.buffer addr len.toNat)).adlerWord } := by
  rw [effect, State.adupdEffect, adlerBytes_eq]
  rfl

theorem effect_adst (s : State) :
    effect .adst s =
      { s with
        mem := (s.writeBytes s.pdst (bigEndian s.adlerWord)).mem
        pdst := s.pdst + 4
        ret := 4
        received := s.responses 4 } :=
  storeAtCursor_eq s s.adlerWord

theorem effect_cfg (width height : BitVec 8) (bpp : BitVec 4) (s : State) :
    effect (.cfg width height bpp) s =
      { s with
        width := width, height := height, bpp := bpp, rowcnt := 0, status := s.status.configure, ret := 1
        received := s.responses 1 } := rfl

theorem effect_bind (src dst : Half) (s : State) :
    effect (.bind src dst) s =
      { s with psrc := src, pdst := dst, status := s.status.bindBuffers, ret := 1, received := s.responses 1 } := rfl

theorem effect_row (s : State) : effect .row s = s.rowEffect (Config.pad s.padIndex) := rfl

theorem effect_rd (reg : Half) (s : State) :
    effect (.rd reg) s =
      { s with
        ret := (s.readIndex reg).getD 0
        received := s.responses ((s.readIndex reg).getD 0) } := rfl

/-! How a command ends, with the legality of its operands kept (60_exceptions.md R160). -/

/-- `exec_next` with the operand test: only an ill-formed command is a command error, only a well-formed one has its
effect. -/
theorem exec_ending {i : Instr} {s t : State} (h : exec i s = .next t) :
    (i.wellFormed = false ∧ t = s.raiseCommandError .badOperand) ∨ t = s.refuse ∨
      (i.wellFormed = true ∧ ¬ RefusalHolds i s ∧ t = effect i s) := by
  rcases exec_cases i s with ⟨hw, he⟩ | ⟨-, -, he⟩ | ⟨hw, hr, -, he⟩ | ⟨-, -, -, he⟩ <;> rw [he] at h
  · exact .inl ⟨hw, (Host.Outcome.next.inj h).symm⟩
  · exact .inr (.inl (Host.Outcome.next.inj h).symm)
  · exact .inr (.inr ⟨hw, hr, (Host.Outcome.next.inj h).symm⟩)
  · nomatch h

/-- The same of a command word, legal or not. -/
theorem runCommand_ending {cw : CommandWord} {s t : State} (h : runCommand cw s = .next t) :
    (∃ c, t = s.raiseCommandError c) ∨ t = s.refuse ∨
      ∃ i : Instr, i.wellFormed = true ∧ ¬ RefusalHolds i s ∧ t = effect i s := by
  obtain ⟨c, -, ht⟩ | ⟨i, -, hi⟩ := runCommand_next h
  · exact .inl ⟨c, ht⟩
  · obtain ⟨-, ht⟩ | ht | he := exec_ending hi
    · exact .inl ⟨_, ht⟩
    · exact .inr (.inl ht)
    · exact .inr (.inr ⟨i, he⟩)

/-- A step with a move of the host left is that move, the move used up (R140). -/
theorem step_of_host_cons {s : State} {act : HostAction} {rest : List HostAction} (h : s.host = act :: rest) :
    step s = runAction act { s with host := rest } := by
  rw [step, h]

/-! The configuration invariant (10_state.md R31 (a) to (c)). -/

/-- With nothing configured, R31 asks for ROWCNT 0 and DONE 0 alone. -/
theorem configInvariant_of_unconfigured {s : State} (hc : s.status.cfgd = false) (hd : s.status.done = false)
    (hr : s.rowcnt = 0) : ConfigInvariant s := by
  simp [ConfigInvariant, hc, hd, hr]

theorem configInvariant_resetBlock (s : State) (d : ResetDraw) : ConfigInvariant (s.resetBlock d) :=
  configInvariant_of_unconfigured rfl rfl rfl

theorem legalDepth_iff (d : BitVec 4) : legalDepth d = true ↔ d.toNat ∈ [1, 2, 4, 8] := by
  revert d
  decide

theorem legalConfig_iff (width height : BitVec 8) (bpp : BitVec 4) :
    legalConfig width height bpp = true ↔
      1 ≤ width.toNat ∧ 1 ≤ height.toNat ∧ bpp.toNat ∈ [1, 2, 4, 8] := by
  have pos (x : BitVec 8) : (x != 0) = true ↔ 1 ≤ x.toNat := by
    rw [bne_iff_ne]
    bv_omega
  rw [legalConfig, Bool.and_eq_true, Bool.and_eq_true, pos, pos, legalDepth_iff, and_assoc]

/-- A legal CFG establishes R31 in any state: ROWCNT 0 is below the nonzero HEIGHT, and DONE is 0 (R111). -/
theorem configInvariant_cfg {width height : BitVec 8} {bpp : BitVec 4} (hl : legalConfig width height bpp = true)
    (s : State) : ConfigInvariant (effect (.cfg width height bpp) s) := by
  have hlegal := (legalConfig_iff width height bpp).mp hl
  have hne : (0 : BitVec 8) ≠ height := by
    rintro rfl
    exact absurd hlegal.2.1 (by decide)
  simp only [ConfigInvariant, effect_cfg, configure_cfgd, configure_done]
  exact ⟨fun _ => ⟨hlegal, Nat.zero_le _, iff_of_false nofun hne⟩, nofun⟩

/-- A ROW not refused keeps R31: ROWCNT was below HEIGHT, so its increment does not wrap, and DONE rises exactly when it
reaches HEIGHT (R115). -/
theorem configInvariant_row {s : State} (p : Byte) (hs : ConfigInvariant s) (hr : ¬ RefusalHolds .row s) :
    ConfigInvariant (s.rowEffect p) := by
  obtain ⟨hlegal, hlt⟩ := config_of_not_refused hs hr
  simp only [RefusalHolds, not_or, Bool.not_eq_false, Bool.not_eq_true] at hr
  obtain ⟨hcfgd, -, hdone⟩ := hr
  have hheight := s.height.isLt
  have hcnt : (s.rowcnt + 1).toNat = s.rowcnt.toNat + 1 := by bv_omega
  have hlast : s.lastRow = true ↔ s.rowcnt + 1 = s.height := by
    rw [State.lastRow, decide_eq_true_iff, ← BitVec.toNat_inj, hcnt]
  simp only [ConfigInvariant, rowEffect_eq, emitRow_cfgd, emitRow_done, hcfgd, hdone, hcnt, Bool.false_or]
  exact ⟨fun _ => ⟨hlegal, hlt, hlast⟩, nofun⟩

/-- CFG establishes R31 and ROW keeps it; no other command changes CFGD, DONE, ROWCNT or the configuration. -/
theorem configInvariant_effect {i : Instr} {s : State} (hs : ConfigInvariant s) (hw : i.wellFormed = true)
    (hr : ¬ RefusalHolds i s) : ConfigInvariant (effect i s) := by
  cases i with
  | crc32 addr len => exact hs
  | crcst =>
    rw [effect_crcst]
    exact hs
  | adrst => exact hs
  | adupd addr len =>
    rw [effect_adupd]
    exact hs
  | adst =>
    rw [effect_adst]
    exact hs
  | cfg width height bpp => exact configInvariant_cfg hw s
  | bind src dst => exact hs
  | row => exact configInvariant_row _ hs hr
  | rd reg => exact hs

theorem configInvariant_runCommand {cw : CommandWord} {s t : State} (hs : ConfigInvariant s)
    (h : runCommand cw s = .next t) : ConfigInvariant t := by
  obtain ⟨c, rfl⟩ | rfl | ⟨i, hw, hr, rfl⟩ := runCommand_ending h
  · exact hs
  · exact hs
  · exact configInvariant_effect hs hw hr

/-- Settles O3: a command word keeps R31, reset establishes it, and the host's stores and loads touch no register. -/
theorem stepKeepsConfigInvariant : Obligations.StepKeepsConfigInvariant := by
  intro s t hs h
  obtain ⟨-, rfl⟩ | ⟨rest, ⟨cw, -, hcw⟩ | ⟨a, v, -, rfl⟩ | ⟨a, -, rfl⟩ | ⟨-, rfl⟩⟩ := step_next h
  · exact hs
  · exact configInvariant_runCommand (s := { s with host := rest }) hs hcw
  · exact hs
  · exact hs
  · exact configInvariant_of_unconfigured rfl rfl rfl

/-- Settles O6: R31 holds after reset, and every step keeps it. -/
theorem statesReachableFromResetMeetConfigInvariant :
    Obligations.StatesReachableFromResetMeetConfigInvariant := by
  intro s d n t h
  exact run_keeps stepKeepsConfigInvariant n _ t (configInvariant_resetBlock s d) h

/-! The sticky flags (R31 (d)). -/

/-- Each of CFGD, BOUND and ILL that is 1 in `f` is 1 in `g`. -/
abbrev Status.StickyLe (f g : Status) : Prop :=
  (f.cfgd = true → g.cfgd = true) ∧ (f.bound = true → g.bound = true) ∧ (f.ill = true → g.ill = true)

theorem Status.StickyLe.refl (f : Status) : f.StickyLe f := ⟨id, id, id⟩

theorem stickyLe_raiseIll (f : Status) : f.StickyLe f.raiseIll := ⟨id, id, fun _ => rfl⟩

theorem stickyLe_configure (f : Status) : f.StickyLe f.configure := ⟨fun _ => rfl, id, id⟩

theorem stickyLe_bindBuffers (f : Status) : f.StickyLe f.bindBuffers := ⟨id, fun _ => rfl, id⟩

theorem stickyLe_emitRow (f : Status) (last : Bool) : f.StickyLe (f.emitRow last) := ⟨id, id, id⟩

/-- CFG, BIND and ROW are the commands that write STATUS, and none of them clears a sticky flag. -/
theorem stickyLe_effect (i : Instr) (s : State) : s.status.StickyLe (effect i s).status := by
  cases i with
  | crc32 addr len => exact .refl _
  | crcst =>
    rw [effect_crcst]
    exact .refl _
  | adrst => exact .refl _
  | adupd addr len =>
    rw [effect_adupd]
    exact .refl _
  | adst =>
    rw [effect_adst]
    exact .refl _
  | cfg width height bpp => exact stickyLe_configure _
  | bind src dst => exact stickyLe_bindBuffers _
  | row =>
    rw [effect_row, rowEffect_eq]
    exact stickyLe_emitRow _ _
  | rd reg => exact .refl _

theorem stickyLe_runCommand {cw : CommandWord} {s t : State} (h : runCommand cw s = .next t) :
    s.status.StickyLe t.status := by
  obtain ⟨c, rfl⟩ | rfl | ⟨i, -, -, rfl⟩ := runCommand_ending h
  · exact stickyLe_raiseIll _
  · exact .refl _
  · exact stickyLe_effect i s

/-- Settles O7: of the host's moves only reset clears a sticky flag, and the next move is not reset. -/
theorem flagsFallOnlyByReset : Obligations.FlagsFallOnlyByReset := by
  intro s t hn h
  obtain ⟨-, rfl⟩ | ⟨rest, ⟨cw, -, hcw⟩ | ⟨a, v, -, rfl⟩ | ⟨a, -, rfl⟩ | ⟨hreset, -⟩⟩ := step_next h
  · exact Status.StickyLe.refl _
  · exact stickyLe_runCommand (s := { s with host := rest }) hcw
  · exact Status.StickyLe.refl _
  · exact Status.StickyLe.refl _
  · exact absurd (by rw [HostResets, hreset, List.head?_cons]) hn

/-! The range of the Adler pair (R28). -/

theorem emitByte_reduced (s : State) (n : Nat) (v : Byte) : AdlerReduced (s.emitByte n v) :=
  adlerByte_reduced (s.memWrite (s.pdst + addrOf n) v) v

/-- The filter byte alone brings the pair into range, whatever it was, and every packed byte keeps it there (R115). -/
theorem rowPrefix_reduced (s : State) (p : Byte) (n : Nat) : AdlerReduced (rowPrefix s p n) := by
  cases n with
  | zero =>
    rw [rowPrefix_zero]
    exact emitByte_reduced _ _ _
  | succ n =>
    rw [rowPrefix_succ]
    exact emitByte_reduced _ _ _

theorem rowEffect_reduced (s : State) (p : Byte) : AdlerReduced (s.rowEffect p) := by
  rw [rowEffect_eq, writeRow_eq_rowPrefix]
  exact rowPrefix_reduced s p s.rowBytes

theorem adrst_reduced (s : State) : AdlerReduced (effect .adrst s) := by
  rw [effect_adrst]
  exact (by decide : (1 : Half).toNat ≤ 65520 ∧ (0 : Half).toNat ≤ 65520)

theorem effect_reduced {s : State} (i : Instr) (hs : AdlerReduced s) : AdlerReduced (effect i s) := by
  cases i with
  | crc32 addr len => exact hs
  | crcst =>
    rw [effect_crcst]
    exact hs
  | adrst => exact adrst_reduced s
  | adupd addr len =>
    rw [effect_adupd]
    exact adlerBytes_reduced (s.buffer addr len.toNat) hs
  | adst =>
    rw [effect_adst]
    exact hs
  | cfg width height bpp => exact hs
  | bind src dst => exact hs
  | row => exact rowEffect_reduced s _
  | rd reg => exact hs

/-- Settles O8: ADUPD's updates keep the range, ADRST and ROW establish it, every other ending leaves the pair alone. -/
theorem adlerPairStaysReduced : Obligations.AdlerPairStaysReduced := by
  refine ⟨fun i s t hs h => ?_, fun s t h => ?_, fun s t hr h => ?_⟩
  · obtain ⟨-, rfl⟩ | rfl | ⟨-, -, rfl⟩ := exec_ending h
    · exact hs
    · exact hs
    · exact effect_reduced i hs
  · obtain ⟨-, rfl⟩ := exec_next_effect (i := .adrst) rfl id h
    exact adrst_reduced s
  · obtain ⟨-, rfl⟩ := exec_next_effect rfl hr h
    exact rowEffect_reduced s _

/-! Which command writes which register (R21 to R28). -/

/-- From `s` to `t` no register but RET changed that the rules do not let the command `i` write. -/
def WritesNamedRegistersOnly (i : Instr) (s t : State) : Prop :=
  (t.psrc ≠ s.psrc → (∃ a b, i = .bind a b) ∨ i = .row) ∧
  (t.pdst ≠ s.pdst → (∃ a b, i = .bind a b) ∨ i = .row ∨ i = .adst ∨ i = .crcst) ∧
  (t.crcr ≠ s.crcr → ∃ a n, i = .crc32 a n) ∧
  (t.width ≠ s.width ∨ t.height ≠ s.height ∨ t.bpp ≠ s.bpp → ∃ w h d, i = .cfg w h d) ∧
  (t.rowcnt ≠ s.rowcnt → (∃ w h d, i = .cfg w h d) ∨ i = .row) ∧
  (t.ada ≠ s.ada ∨ t.adb ≠ s.adb → i = .adrst ∨ (∃ a n, i = .adupd a n) ∨ i = .row) ∧
  (t.status.cfgd ≠ s.status.cfgd → ∃ w h d, i = .cfg w h d) ∧
  (t.status.bound ≠ s.status.bound → ∃ a b, i = .bind a b) ∧
  (t.status.done ≠ s.status.done → (∃ w h d, i = .cfg w h d) ∨ i = .row) ∧
  (t.status.ill ≠ s.status.ill → i.wellFormed = false) ∧
  t.host = s.host ∧ t.memAdmit = s.memAdmit ∧ t.resetIndex = s.resetIndex ∧
  (t.padIndex ≠ s.padIndex → i = .row)

/-- The effect of each command lists the fields it changes, and those are the ones its rule names. -/
theorem writesNamedRegistersOnly_effect (i : Instr) (s : State) : WritesNamedRegistersOnly i s (effect i s) := by
  unfold WritesNamedRegistersOnly
  cases i with
  | crc32 addr len => simp [effect_crc32]
  | crcst => simp [effect_crcst]
  | adrst => simp [effect_adrst]
  | adupd addr len => simp [effect_adupd]
  | adst => simp [effect_adst]
  | cfg width height bpp => simp [effect_cfg]
  | bind src dst => simp [effect_bind]
  | row => simp [effect_row, rowEffect_eq]
  | rd reg => simp [effect_rd]

/-- Settles O21: a command error writes ILL alone beside RET, a refusal nothing, and an effect what its rule names. -/
theorem registersAreWrittenByTheNamedCommandsOnly : Obligations.RegistersAreWrittenByTheNamedCommandsOnly := by
  intro i s t h
  show WritesNamedRegistersOnly i s t
  obtain ⟨hw, rfl⟩ | rfl | ⟨-, -, rfl⟩ := exec_ending h
  · simp [WritesNamedRegistersOnly, hw]
  · simp [WritesNamedRegistersOnly]
  · exact writesNamedRegistersOnly_effect i s

/-! Reset (R40). -/

/-- Settles O1: the draw is the next one of the model's sequence. -/
theorem resetLeavesFlagsZeroAndMemory : Obligations.ResetLeavesFlagsZeroAndMemory := by
  intro s rest h
  refine ⟨Config.resetDraw s.resetIndex, State.hostReset { s with host := rest }, step_of_host_cons h, ?_⟩
  exact ⟨rfl, rfl, rfl, rfl, rfl, rfl, rfl, rfl, rfl, rfl, rfl, rfl, rfl, rfl, rfl, rfl⟩

/-- Settles O2: nothing is configured after reset, and memory lists no cell. -/
theorem resetStateMeetsInvariants : Obligations.ResetStateMeetsInvariants :=
  ⟨configInvariant_of_unconfigured rfl rfl rfl, wf_reset⟩

end Sys2Proof.Machine
end

section
/-! PROOFS. The statements of the family 20_memory.md: reads after writes, the canonical form of memory and what keeps it,
and the accesses that `MEM_ADMIT` rejects. -/

namespace Sys2Proof.Machine

/-! Reads of a listed cell, and of the cells after it. -/

@[simp] theorem Memory.read_cons_same (a : Nat) (v : Byte) (m : Memory) : Memory.read ((a, v) :: m) a = v := by
  rw [Memory.read, if_pos rfl]

theorem Memory.read_cons_other {a b : Nat} (v : Byte) (m : Memory) (hb : b ≠ a) :
    Memory.read ((a, v) :: m) b = Memory.read m b := by
  rw [Memory.read, if_neg hb]

/-- Settles O23, by whether the cell read is the cell written. -/
theorem memoryReadsTheLatestWrite : Obligations.MemoryReadsTheLatestWrite := by
  intro s a c v hs
  split
  case isTrue hc => exact hc ▸ memRead_memWrite_same a v hs
  case isFalse hc => exact memRead_memWrite_other s v hc

/-! The canonical form is one list for each content (R50). -/

/-- A listed cell does not read as an unlisted one, so a canonical memory that reads like it there starts no later. -/
theorem Memory.bound_le_of_read_eq {lo lo' a : Nat} {v : Byte} {m n : Memory}
    (hm : Memory.wfFrom lo ((a, v) :: m) = true) (hn : Memory.wfFrom lo' n = true)
    (h : Memory.read ((a, v) :: m) a = Memory.read n a) : lo' ≤ a := by
  obtain ⟨-, -, hv, -⟩ := Memory.wfFrom_cons.mp hm
  refine Nat.le_of_not_lt fun hlt => hv ?_
  rw [← Memory.read_cons_same a v m, h, Memory.read_below hn hlt]

/-- An empty list is canonical from every bound, so a listed cell cannot read like it. -/
theorem Memory.read_head_ne_nil {lo a : Nat} {v : Byte} {m : Memory} (hm : Memory.wfFrom lo ((a, v) :: m) = true) :
    Memory.read ((a, v) :: m) a ≠ Memory.read [] a :=
  fun h => Nat.not_succ_le_self a (Memory.bound_le_of_read_eq (lo' := a + 1) hm rfl h)

/-- Dropping the same first cell keeps two canonical memories reading alike: what follows does not list that cell. -/
theorem Memory.read_tail_eq {a : Nat} {v w : Byte} {m n : Memory} (hm : Memory.wfFrom (a + 1) m = true)
    (hn : Memory.wfFrom (a + 1) n = true) {c : Nat}
    (h : Memory.read ((a, v) :: m) c = Memory.read ((a, w) :: n) c) : Memory.read m c = Memory.read n c := by
  by_cases hc : c = a
  · rw [Memory.read_below hm (by omega), Memory.read_below hn (by omega)]
  · rwa [Memory.read_cons_other v m hc, Memory.read_cons_other w n hc] at h

/-- By induction on the two lists: equal reads force the same first address, the same byte there, and equal reads of the
rest. -/
theorem Memory.eq_of_read_eq {lo : Nat} {m n : Memory} (hm : Memory.wfFrom lo m = true)
    (hn : Memory.wfFrom lo n = true) (h : ∀ c < 65536, Memory.read m c = Memory.read n c) : m = n := by
  induction m generalizing lo n with
  | nil =>
    cases n with
    | nil => rfl
    | cons d n =>
      obtain ⟨-, hb, -, -⟩ := Memory.wfFrom_cons.mp hn
      exact absurd (h d.1 hb).symm (Memory.read_head_ne_nil hn)
  | cons c m ih =>
    obtain ⟨a, v⟩ := c
    obtain ⟨-, ha, hv, hmtail⟩ := Memory.wfFrom_cons.mp hm
    cases n with
    | nil => exact absurd (h a ha) (Memory.read_head_ne_nil hm)
    | cons d n =>
      obtain ⟨b, w⟩ := d
      obtain ⟨-, hb, hw, hntail⟩ := Memory.wfFrom_cons.mp hn
      have hba : b ≤ a :=
        Memory.bound_le_of_read_eq hm (Memory.wfFrom_cons.mpr ⟨Nat.le_refl b, hb, hw, hntail⟩) (h a ha)
      have hab : a ≤ b :=
        Memory.bound_le_of_read_eq hn (Memory.wfFrom_cons.mpr ⟨Nat.le_refl a, ha, hv, hmtail⟩) (h b hb).symm
      obtain rfl : a = b := Nat.le_antisymm hab hba
      obtain rfl : v = w := by simpa using h a ha
      rw [ih hmtail hntail fun c hc => Memory.read_tail_eq hmtail hntail (h c hc)]

/-- Settles O5: the 65536 addresses are the numbers below 65536. -/
theorem canonicalMemoriesReadingAlikeAreEqual : Obligations.CanonicalMemoriesReadingAlikeAreEqual := by
  intro m n hm hn h
  refine Memory.eq_of_read_eq hm hn fun c hc => ?_
  have hread := h (BitVec.ofNat 16 c)
  rwa [BitVec.toNat_ofNat, Nat.mod_eq_of_lt hc] at hread

/-! Every step keeps the canonical form. -/

/-- CRCST, ADST and ROW are the commands that write memory, and they write it by `MemWrite` (R54). -/
theorem wf_effect (i : Instr) {s : State} (hs : s.mem.wf = true) : (effect i s).mem.wf = true := by
  cases i with
  | crc32 addr len => exact hs
  | crcst =>
    rw [effect_crcst]
    exact wf_writeBytes s.pdst (bigEndian s.crcr) hs
  | adrst => exact hs
  | adupd addr len =>
    rw [effect_adupd]
    exact hs
  | adst =>
    rw [effect_adst]
    exact wf_writeBytes s.pdst (bigEndian s.adlerWord) hs
  | cfg width height bpp => exact hs
  | bind src dst => exact hs
  | row =>
    rw [effect_row, rowEffect_eq, writeRow_eq_rowPrefix]
    exact wf_rowPrefix _ s.rowBytes hs
  | rd reg => exact hs

theorem wf_runCommand {cw : CommandWord} {s t : State} (hs : s.mem.wf = true) (h : runCommand cw s = .next t) :
    t.mem.wf = true := by
  obtain ⟨c, rfl⟩ | rfl | ⟨i, -, -, rfl⟩ := runCommand_ending h
  · exact hs
  · exact hs
  · exact wf_effect i hs

/-- Settles O4: command words and the host's stores write by `MemWrite`, which keeps the form; loads and reset write no
cell. -/
theorem stepKeepsMemoryCanonical : Obligations.StepKeepsMemoryCanonical := by
  intro s t hs h
  obtain ⟨-, rfl⟩ | ⟨rest, ⟨cw, -, hcw⟩ | ⟨a, v, -, rfl⟩ | ⟨a, -, rfl⟩ | ⟨-, rfl⟩⟩ := step_next h
  · exact hs
  · exact wf_runCommand (s := { s with host := rest }) hs hcw
  · exact wf_memWrite (s := { s with host := rest }) a v hs
  · exact hs
  · exact hs

/-! `MEM_ADMIT` (R56). -/

/-- Settles O22: of the four endings of a command, the fault alone has operands legal, no refusal and a rejected access. -/
theorem commandsFaultExactlyOnAccessesNotAdmitted : Obligations.CommandsFaultExactlyOnAccessesNotAdmitted := by
  intro i s
  rw [← admitted_iff]
  obtain ⟨hw, he⟩ | ⟨-, hr, he⟩ | ⟨-, -, ha, he⟩ | ⟨hw, hr, ha, he⟩ := exec_cases i s
  · simp [he, hw]
  · simp [he, hr]
  · simp [he, ha]
  · simp [he, hw, hr, ha]

end Sys2Proof.Machine
end

section
/-! PROOFS. The statements of the family 30_encoding.md: the command word and its decoder, illegal words, the opcode map
(R72 to R79), and the assembler (R80 to R82). -/

namespace Sys2Proof.Machine

/-! The fields of a word as numbers. -/

theorem opNat_eq (cw : CommandWord) : opNat cw = (opField cw).toNat := (opField_toNat cw).symm

theorem aNat_eq (cw : CommandWord) : aNat cw = (fieldA cw).toNat := (fieldA_toNat cw).symm

theorem bNat_eq (cw : CommandWord) : bNat cw = (fieldB cw).toNat := (fieldB_toNat cw).symm

@[simp] theorem opNat_commandWord (op : BitVec 8) (a b : Half) : opNat (commandWord op a b) = op.toNat := by
  rw [opNat_eq, opField_commandWord]

@[simp] theorem aNat_commandWord (op : BitVec 8) (a b : Half) : aNat (commandWord op a b) = a.toNat := by
  rw [aNat_eq, fieldA_commandWord]

@[simp] theorem bNat_commandWord (op : BitVec 8) (a b : Half) : bNat (commandWord op a b) = b.toNat := by
  rw [bNat_eq, fieldB_commandWord]

/-- A word with opcode `op` is `op` before its two operand fields. -/
theorem commandWord_of_opField {cw : CommandWord} {op : BitVec 8} (h : opField cw = op) :
    commandWord op (fieldA cw) (fieldB cw) = cw := by
  rw [← h, commandWord_fields]

theorem dims_toNat (height width : BitVec 8) :
    (height ++ width : Half).toNat = height.toNat * 256 + width.toNat := by
  rw [BitVec.toNat_append, Nat.shiftLeft_eq, Nat.mul_comm, ← Nat.two_pow_add_eq_or_of_lt width.isLt]

theorem operand_toNat (bpp : BitVec 4) : (0#12 ++ bpp : Half).toNat = bpp.toNat := by
  rw [BitVec.toNat_append]
  simp

theorem commandWord_inj {op op' : BitVec 8} {a a' b b' : Half} :
    commandWord op a b = commandWord op' a' b' ↔ op = op' ∧ a = a' ∧ b = b' := by
  refine ⟨fun h => ?_, ?_⟩
  · exact ⟨by simpa using congrArg opField h, by simpa using congrArg fieldA h, by simpa using congrArg fieldB h⟩
  · rintro ⟨rfl, rfl, rfl⟩
    rfl

/-- Format C's A is its high byte before its low byte (R73). -/
theorem dims_of_halves (a : Half) : a.extractLsb' 8 8 ++ a.extractLsb' 0 8 = a := by
  apply BitVec.eq_of_toNat_eq
  have := a.isLt
  rw [dims_toNat]
  simp only [BitVec.extractLsb'_toNat, Nat.shiftRight_eq_div_pow]
  omega

/-- Format C's B is its depth alone when B[15:4] is 0 (R73). -/
theorem operand_of_depth {b : Half} (h : b.extractLsb' 4 12 = 0#12) : 0#12 ++ b.extractLsb' 0 4 = b := by
  apply BitVec.eq_of_toNat_eq
  have h := congrArg BitVec.toNat h
  have := b.isLt
  rw [operand_toNat]
  simp only [BitVec.extractLsb'_toNat, Nat.shiftRight_eq_div_pow, BitVec.toNat_ofNat] at h ⊢
  omega

theorem reserved_toNat (b : Half) : (b.extractLsb' 4 12).toNat = b.toNat / 16 := by
  have := b.isLt
  simp only [BitVec.extractLsb'_toNat, Nat.shiftRight_eq_div_pow]
  omega

/-! The cases of R77 on the fields. -/

/-- The opcodes of R74. -/
def assignedOpcodes : List (BitVec 8) := [0x01, 0x02, 0x10, 0x11, 0x12, 0x20, 0x21, 0x22, 0x30]

/-- The opcodes of format N (R73). -/
def formatNOpcodes : List (BitVec 8) := [0x02, 0x10, 0x12, 0x22]

/-- The opcodes of format AB (R73). -/
def formatABOpcodes : List (BitVec 8) := [0x01, 0x11, 0x21]

theorem unassignedOpcode_iff (cw : CommandWord) :
    UnassignedOpcode cw ↔ opField cw ∉ assignedOpcodes := by
  rw [UnassignedOpcode, opNat_eq]
  exact not_congr (List.mem_map_of_injective BitVec.toNat_injective (l := assignedOpcodes))

theorem reservedFieldNonzero_iff (cw : CommandWord) :
    ReservedFieldNonzero cw ↔
      (opField cw ∈ formatNOpcodes ∧ ¬ (fieldA cw = 0 ∧ fieldB cw = 0)) ∨
      (opField cw = 0x30 ∧ fieldB cw ≠ 0) ∨
      (opField cw = 0x20 ∧ (fieldB cw).extractLsb' 4 12 ≠ 0) := by
  have hmem : (opField cw).toNat ∈ [0x02, 0x10, 0x12, 0x22] ↔ opField cw ∈ formatNOpcodes :=
    List.mem_map_of_injective BitVec.toNat_injective (l := formatNOpcodes)
  simp only [ReservedFieldNonzero, opNat_eq, aNat_eq, bNat_eq, hmem, ← reserved_toNat, ← not_and_or, ne_eq,
    ← BitVec.toNat_inj]
  rfl

/-- Only an assigned opcode has reserved fields. -/
theorem not_unassigned_of_reserved {cw : CommandWord} (h : ReservedFieldNonzero cw) : ¬ UnassignedOpcode cw := by
  intro hu
  simp only [UnassignedOpcode, List.mem_cons, List.not_mem_nil, or_false, not_or] at hu
  simp only [ReservedFieldNonzero, List.mem_cons, List.not_mem_nil, or_false] at h
  omega

/-- Only CFG and RD have operands the block does not support. -/
theorem not_unassigned_of_unsupported {cw : CommandWord} (h : UnsupportedOperand cw) : ¬ UnassignedOpcode cw := by
  intro hu
  obtain ⟨hop, -⟩ | ⟨hop, -⟩ := h <;> simp [UnassignedOpcode, hop] at hu

/-! The first two tests of the decode procedure (R79). -/

/-- `r` is what the tests of the opcode and of the reserved fields say of `cw`, and a command they give has the word as
its encoding. -/
def AnswersFields (cw : CommandWord) (r : Except CommandErrorCause Instr) : Prop :=
  (UnassignedOpcode cw ∧ r = .error .badOpcode) ∨
  (ReservedFieldNonzero cw ∧ r = .error .reservedNonzero) ∨
  (¬ UnassignedOpcode cw ∧ ¬ ReservedFieldNonzero cw ∧ ∃ i, encode i = cw ∧ r = .ok i)

theorem answersFields_formatN {cw : CommandWord} {op : BitVec 8} {i : Instr} (hop : opField cw = op)
    (hmem : op ∈ formatNOpcodes) (hi : encode i = commandWord op 0 0) : AnswersFields cw (formatN cw i) := by
  have hops : ∀ op ∈ formatNOpcodes, op ∈ assignedOpcodes ∧ op ≠ 0x30 ∧ op ≠ 0x20 := by decide
  obtain ⟨ha, h30, h20⟩ := hops op hmem
  rw [AnswersFields, unassignedOpcode_iff, reservedFieldNonzero_iff, hop, formatN]
  by_cases hz : fieldA cw = 0 ∧ fieldB cw = 0
  · have hcw := commandWord_of_opField hop
    rw [hz.1, hz.2, ← hi] at hcw
    exact .inr (.inr ⟨not_not.mpr ha, by tauto, i, hcw, if_pos hz⟩)
  · exact .inr (.inl ⟨.inl ⟨hmem, hz⟩, if_neg hz⟩)

theorem answersFields_formatAB {cw : CommandWord} {op : BitVec 8} {i : Half → Half → Instr} (hop : opField cw = op)
    (hmem : op ∈ formatABOpcodes) (hi : ∀ a b, encode (i a b) = commandWord op a b) :
    AnswersFields cw (formatAB cw i) := by
  have hops : ∀ op ∈ formatABOpcodes, op ∈ assignedOpcodes ∧ op ∉ formatNOpcodes ∧ op ≠ 0x30 ∧ op ≠ 0x20 := by decide
  obtain ⟨ha, hn, h30, h20⟩ := hops op hmem
  rw [AnswersFields, unassignedOpcode_iff, reservedFieldNonzero_iff, hop]
  exact .inr (.inr ⟨not_not.mpr ha, by tauto, _, (hi _ _).trans (commandWord_of_opField hop), rfl⟩)

theorem answersFields_formatA {cw : CommandWord} (hop : opField cw = 0x30) : AnswersFields cw (formatA cw .rd) := by
  have ha : (0x30 : BitVec 8) ∈ assignedOpcodes := by decide
  have hn : (0x30 : BitVec 8) ∉ formatNOpcodes := by decide
  have h20 : (0x30 : BitVec 8) ≠ 0x20 := by decide
  rw [AnswersFields, unassignedOpcode_iff, reservedFieldNonzero_iff, hop, formatA]
  by_cases hz : fieldB cw = 0
  · have hcw := commandWord_of_opField hop
    rw [hz] at hcw
    exact .inr (.inr ⟨not_not.mpr ha, by tauto, .rd (fieldA cw), hcw, if_pos hz⟩)
  · exact .inr (.inl ⟨.inr (.inl ⟨rfl, hz⟩), if_neg hz⟩)

theorem answersFields_formatC {cw : CommandWord} (hop : opField cw = 0x20) : AnswersFields cw (formatC cw .cfg) := by
  have ha : (0x20 : BitVec 8) ∈ assignedOpcodes := by decide
  have hn : (0x20 : BitVec 8) ∉ formatNOpcodes := by decide
  have h30 : (0x20 : BitVec 8) ≠ 0x30 := by decide
  rw [AnswersFields, unassignedOpcode_iff, reservedFieldNonzero_iff, hop, formatC]
  by_cases hz : (fieldB cw).extractLsb' 4 12 = 0
  · have hcw := commandWord_of_opField hop
    rw [← dims_of_halves (fieldA cw), ← operand_of_depth hz] at hcw
    exact .inr (.inr ⟨not_not.mpr ha, by tauto, .cfg _ _ _, hcw, if_pos hz⟩)
  · exact .inr (.inl ⟨.inr (.inr ⟨rfl, hz⟩), if_neg hz⟩)

/-- What `decode` answers, and for which words: each opcode's format tests the reserved fields that R77 names for it. -/
theorem answersFields_decode (cw : CommandWord) : AnswersFields cw (decode cw) := by
  unfold decode
  split_ifs with h01 h02 h10 h11 h12 h20 h21 h22 h30
  · exact answersFields_formatAB h01 (by decide) fun _ _ => rfl
  · exact answersFields_formatN h02 (by decide) rfl
  · exact answersFields_formatN h10 (by decide) rfl
  · exact answersFields_formatAB h11 (by decide) fun _ _ => rfl
  · exact answersFields_formatN h12 (by decide) rfl
  · exact answersFields_formatC h20
  · exact answersFields_formatAB h21 (by decide) fun _ _ => rfl
  · exact answersFields_formatN h22 (by decide) rfl
  · exact answersFields_formatA h30
  · refine .inl ⟨(unassignedOpcode_iff cw).mpr ?_, rfl⟩
    simp only [assignedOpcodes, List.mem_cons, List.not_mem_nil, or_false, not_or]
    exact ⟨h01, h02, h10, h11, h12, h20, h21, h22, h30⟩

/-! Decoding and encoding are inverse to each other. -/

/-- Settles O13: the tests give a command only together with its word. -/
theorem encodeOfDecodeIsTheWord : Obligations.EncodeOfDecodeIsTheWord := by
  intro cw i h
  obtain ⟨-, hd⟩ | ⟨-, hd⟩ | ⟨-, -, j, hj, hd⟩ := answersFields_decode cw <;> rw [h] at hd
  · nomatch hd
  · nomatch hd
  · cases hd
    exact hj

/-- Settles O12: each command's opcode selects the format that cuts its operands out of the word again. -/
theorem decodeOfEncodeIsTheCommand : Obligations.DecodeOfEncodeIsTheCommand := by
  intro i
  cases i with
  | crc32 addr len => simp [decode, encode, formatAB]
  | crcst => rfl
  | adrst => rfl
  | adupd addr len => simp [decode, encode, formatAB]
  | adst => rfl
  | cfg width height bpp =>
    simp [decode, encode, formatC, height_of_dims, width_of_dims, depth_of_operand, reserved_of_operand]
  | bind src dst => simp [decode, encode, formatAB]
  | row => rfl
  | rd reg => simp [decode, encode, formatA]

theorem decode_eq_ok_iff (cw : CommandWord) (i : Instr) : decode cw = .ok i ↔ encode i = cw := by
  refine ⟨encodeOfDecodeIsTheWord cw i, ?_⟩
  rintro rfl
  exact decodeOfEncodeIsTheCommand i

theorem encode_injective : Function.Injective encode := by
  intro i j h
  have hd := (decode_eq_ok_iff (encode j) i).mpr h
  rw [decodeOfEncodeIsTheCommand j] at hd
  exact (Except.ok.inj hd).symm

theorem runCommand_encode (i : Instr) (s : State) : runCommand (encode i) s = exec i s := by
  rw [runCommand, decodeOfEncodeIsTheCommand i]

/-! The third test of the decode procedure, and the illegal words (R77, R79). -/

theorem unsupportedOperand_cfg (width height : BitVec 8) (bpp : BitVec 4) :
    UnsupportedOperand (encode (.cfg width height bpp)) ↔
      bpp.toNat ∉ [1, 2, 4, 8] ∨ width.toNat = 0 ∨ height.toNat = 0 := by
  have hlow : (height.toNat * 256 + width.toNat) % 256 = width.toNat := by omega
  have hhigh : (height.toNat * 256 + width.toNat) / 256 = height.toNat := by omega
  have hdepth : bpp.toNat % 16 = bpp.toNat := by omega
  simp [UnsupportedOperand, encode, -BitVec.toNat_append, dims_toNat, operand_toNat, hlow, hhigh, hdepth]

/-- The further condition of R74 in R77's words. -/
theorem wellFormed_iff (i : Instr) : i.wellFormed = true ↔ ¬ UnsupportedOperand (encode i) := by
  cases i with
  | cfg width height bpp =>
    rw [Instr.wellFormed, legalConfig_iff, unsupportedOperand_cfg, Nat.one_le_iff_ne_zero, Nat.one_le_iff_ne_zero]
    tauto
  | rd reg => simp [Instr.wellFormed, UnsupportedOperand, encode, legalReadIndex]
  | _ => simp [Instr.wellFormed, UnsupportedOperand, encode]

theorem decodeLegal_of_error {cw : CommandWord} {c : CommandErrorCause} (h : decode cw = .error c) :
    decodeLegal cw = .error c := by
  rw [decodeLegal, h]

theorem decodeLegal_encode (i : Instr) :
    decodeLegal (encode i) = if i.wellFormed then .ok i else .error .badOperand := by
  rw [decodeLegal, decodeOfEncodeIsTheCommand i]

/-- Everything the decode procedure R79 can answer. -/
theorem decodeLegal_cases (cw : CommandWord) :
    (UnassignedOpcode cw ∧ decodeLegal cw = .error .badOpcode) ∨
    (ReservedFieldNonzero cw ∧ decodeLegal cw = .error .reservedNonzero) ∨
    (¬ ReservedFieldNonzero cw ∧ UnsupportedOperand cw ∧ decodeLegal cw = .error .badOperand) ∨
    (¬ IllegalWord cw ∧ ∃ i, i.wellFormed = true ∧ encode i = cw ∧ decodeLegal cw = .ok i) := by
  obtain ⟨hu, hd⟩ | ⟨hr, hd⟩ | ⟨hu, hr, i, rfl, -⟩ := answersFields_decode cw
  · exact .inl ⟨hu, decodeLegal_of_error hd⟩
  · exact .inr (.inl ⟨hr, decodeLegal_of_error hd⟩)
  · have hw := wellFormed_iff i
    rw [decodeLegal_encode]
    by_cases ho : UnsupportedOperand (encode i)
    · exact .inr (.inr (.inl ⟨hr, ho, if_neg (by tauto)⟩))
    · exact .inr (.inr (.inr ⟨by rw [IllegalWord]; tauto, i, hw.mpr ho, rfl, if_pos (hw.mpr ho)⟩))

/-- Any cause, wherever it is found, is the one command error of R161. -/
theorem runCommand_of_decodeLegal_error {cw : CommandWord} {c : CommandErrorCause} (h : decodeLegal cw = .error c)
    (s : State) : runCommand cw s = .next (s.raiseCommandError c) := by
  cases hd : decode cw with
  | error c' =>
    rw [runCommand, hd]
    rfl
  | ok i =>
    obtain rfl := (decode_eq_ok_iff cw i).mp hd
    cases hw : i.wellFormed with
    | true => simp [decodeLegal_encode, hw] at h
    | false =>
      rw [runCommand_encode, exec_illFormed hw]
      rfl

theorem runCommand_of_decodeLegal_ok {cw : CommandWord} {i : Instr} (h : decodeLegal cw = .ok i) (s : State) :
    runCommand cw s = exec i s := by
  obtain ⟨-, hd⟩ | ⟨-, hd⟩ | ⟨-, -, hd⟩ | ⟨-, j, -, rfl, hd⟩ := decodeLegal_cases cw <;> rw [h] at hd <;> cases hd
  exact runCommand_encode i s

/-- Settles O15: the answers of the decode procedure exclude each other, and so do their conditions. -/
theorem causesAreTestedInOrder : Obligations.CausesAreTestedInOrder := by
  intro cw
  have hru := @not_unassigned_of_reserved cw
  have hou := @not_unassigned_of_unsupported cw
  have hrun (s : State) := And.intro (fun c (hc : decodeLegal cw = .error c) => runCommand_of_decodeLegal_error hc s)
    (fun i (hi : decodeLegal cw = .ok i) => runCommand_of_decodeLegal_ok hi s)
  obtain ⟨hu, hd⟩ | ⟨hr, hd⟩ | ⟨hr, ho, hd⟩ | ⟨hl, i, -, -, hd⟩ := decodeLegal_cases cw
  · have hr : ¬ ReservedFieldNonzero cw := fun hr => hru hr hu
    have ho : ¬ UnsupportedOperand cw := fun ho => hou ho hu
    refine ⟨?_, ?_, ?_, hrun⟩ <;> simp [hd, hu, hr, ho]
  · refine ⟨?_, ?_, ?_, hrun⟩ <;> simp [hd, hr, hru hr]
  · refine ⟨?_, ?_, ?_, hrun⟩ <;> simp [hd, hr, ho, hou ho]
  · obtain ⟨hu, hr, ho⟩ : ¬ UnassignedOpcode cw ∧ ¬ ReservedFieldNonzero cw ∧ ¬ UnsupportedOperand cw := by
      simpa [IllegalWord] using hl
    refine ⟨?_, ?_, ?_, hrun⟩ <;> simp [hd, hu, hr, ho]

/-- Settles O14: each answer of the decode procedure is a cause of R162 or the one legal command the word encodes. -/
theorem illegalWordsAreCommandErrors : Obligations.IllegalWordsAreCommandErrors := by
  intro cw
  obtain ⟨hu, hd⟩ | ⟨hr, hd⟩ | ⟨hr, ho, hd⟩ | ⟨hl, i, hw, rfl, hd⟩ := decodeLegal_cases cw
  · exact ⟨fun _ => runCommand_of_decodeLegal_error hd, fun h => absurd (.inl hu) h⟩
  · exact ⟨fun _ => runCommand_of_decodeLegal_error hd, fun h => absurd (.inr (.inl hr)) h⟩
  · exact ⟨fun _ => runCommand_of_decodeLegal_error hd, fun h => absurd (.inr (.inr ho)) h⟩
  · exact ⟨fun h => absurd h hl, fun _ => ⟨i, runCommand_encode i, hw, rfl, fun _ hj => encode_injective hj⟩⟩

/-- Settles O9: a step with a word on the port is `runCommand`, for which O14 says what an illegal word does. -/
theorem stepRunsTheDecodedCommand : Obligations.StepRunsTheDecodedCommand := by
  intro s cw rest h
  have hstep : step s = runCommand cw { s with host := rest } := step_of_host_cons h
  refine ⟨hstep, fun i hi => ?_, fun hill => ?_⟩
  · obtain rfl := (decode_eq_ok_iff cw i).mp hi
    rw [hstep, runCommand_encode]
  · rw [hstep, (illegalWordsAreCommandErrors cw).1 hill]

/-! The opcode map (R74). -/

/-- A row with opcode `op` and the mask `{0xFF, ma, mb}` has a word exactly when the opcode is `op` and the masked bits
of the operand fields are 0. -/
theorem masked_eq_iff (cw : CommandWord) (op : BitVec 8) (ma mb : Half) :
    cw &&& commandWord 0xFF ma mb = commandWord op 0 0 ↔
      opField cw = op ∧ fieldA cw &&& ma = 0 ∧ fieldB cw &&& mb = 0 := by
  have hop : opField cw &&& 0xFF = opField cw := BitVec.and_allOnes
  conv_lhs => rw [← commandWord_fields cw, commandWord_and, commandWord_inj, hop]

theorem masked_encode (i : Instr) : encode i &&& (opcodeRow i).mask = (opcodeRow i).pattern := by
  cases i with
  | crc32 addr len => exact Laws.MatchesRow.crc32 addr len
  | crcst => exact Laws.MatchesRow.crcst
  | adrst => exact Laws.MatchesRow.adrst
  | adupd addr len => exact Laws.MatchesRow.adupd addr len
  | adst => exact Laws.MatchesRow.adst
  | cfg width height bpp => exact Laws.MatchesRow.cfg width height bpp
  | bind src dst => exact Laws.MatchesRow.bind src dst
  | row => exact Laws.MatchesRow.row
  | rd reg => exact Laws.MatchesRow.rd reg

theorem opcodeRow_mem (i : Instr) : opcodeRow i ∈ opcodeTable := by
  cases i <;> simp only [opcodeRow] <;> decide

/-- Every row's mask takes in the whole opcode, so a word has the opcode of a row it matches. -/
theorem opField_of_masked {r : OpcodeRow} (hr : r ∈ opcodeTable) {cw : CommandWord} (h : cw &&& r.mask = r.pattern) :
    opField cw = opField r.pattern := by
  have hmask : ∀ r ∈ opcodeTable, r.mask = commandWord 0xFF (fieldA r.mask) (fieldB r.mask) := by decide
  have hpat : ∀ r ∈ opcodeTable, r.pattern = commandWord (opField r.pattern) 0 0 := by decide
  rw [hmask r hr, hpat r hr, masked_eq_iff] at h
  exact h.1

/-- No two rows have one opcode. -/
theorem row_eq_of_opField_eq {r q : OpcodeRow} (hr : r ∈ opcodeTable) (hq : q ∈ opcodeTable)
    (h : opField r.pattern = opField q.pattern) : r = q := by
  have hall : ∀ r ∈ opcodeTable, ∀ q ∈ opcodeTable, opField r.pattern = opField q.pattern → r = q := by decide
  exact hall r hr q hq h

/-- The mask of format N's rows takes in the whole word. -/
theorem eq_of_masked_all {cw p : CommandWord} (h : cw &&& 0xFFFFFFFFFF = p) : p = cw :=
  h.symm.trans BitVec.and_allOnes

/-- CFG's mask takes in B[15:4] (R73). -/
theorem reserved_of_masked {b : Half} (h : b &&& 0xFFF0 = 0) : b.extractLsb' 4 12 = 0#12 := by
  have h := congrArg (BitVec.extractLsb' 4 12) h
  rw [BitVec.extractLsb'_and] at h
  exact BitVec.and_allOnes.symm.trans h

/-- A word that matches a row is some command of that row. -/
theorem exists_encode_of_masked {r : OpcodeRow} (hr : r ∈ opcodeTable) {cw : CommandWord}
    (h : cw &&& r.mask = r.pattern) : ∃ i, encode i = cw := by
  simp only [opcodeTable, List.mem_cons, List.not_mem_nil, or_false] at hr
  obtain rfl | rfl | rfl | rfl | rfl | rfl | rfl | rfl | rfl := hr
  · obtain ⟨hop, -, -⟩ := (masked_eq_iff cw 0x01 0 0).mp h
    exact ⟨.crc32 _ _, commandWord_of_opField hop⟩
  · exact ⟨.crcst, eq_of_masked_all h⟩
  · exact ⟨.adrst, eq_of_masked_all h⟩
  · obtain ⟨hop, -, -⟩ := (masked_eq_iff cw 0x11 0 0).mp h
    exact ⟨.adupd _ _, commandWord_of_opField hop⟩
  · exact ⟨.adst, eq_of_masked_all h⟩
  · obtain ⟨hop, -, hb⟩ := (masked_eq_iff cw 0x20 0 0xFFF0).mp h
    have hcw := commandWord_of_opField hop
    rw [← dims_of_halves (fieldA cw), ← operand_of_depth (reserved_of_masked hb)] at hcw
    exact ⟨.cfg _ _ _, hcw⟩
  · obtain ⟨hop, -, -⟩ := (masked_eq_iff cw 0x21 0 0).mp h
    exact ⟨.bind _ _, commandWord_of_opField hop⟩
  · exact ⟨.row, eq_of_masked_all h⟩
  · obtain ⟨hop, -, hb⟩ := (masked_eq_iff cw 0x30 0 0xFFFF).mp h
    have hcw := commandWord_of_opField hop
    rw [show fieldB cw = 0 from BitVec.and_allOnes.symm.trans hb] at hcw
    exact ⟨.rd _, hcw⟩

/-- Settles O16: a command's word matches its own row, and any other row it matched would have its opcode. -/
theorem decodeFollowsTheOpcodeMap : Obligations.DecodeFollowsTheOpcodeMap := by
  intro cw
  simp only [decode_eq_ok_iff]
  refine ⟨?_, ?_, ?_⟩
  · rintro i rfl r hr
    refine ⟨fun h => ?_, ?_⟩
    · have hri := opField_of_masked hr h
      rw [opField_of_masked (opcodeRow_mem i) (masked_encode i)] at hri
      exact (row_eq_of_opField_eq (opcodeRow_mem i) hr hri).symm
    · rintro rfl
      exact masked_encode i
  · rintro ⟨i, rfl⟩
    exact ⟨opcodeRow i, opcodeRow_mem i, masked_encode i⟩
  · rintro ⟨r, hr, h⟩
    exact exists_encode_of_masked hr h

/-- Settles O17: nine fixed words, decoded by evaluation. -/
theorem workedEncodings : Obligations.WorkedEncodings := by
  unfold Obligations.WorkedEncodings
  decide

/-! Numbers in assembly text (R80). -/

theorem digitsFrom_append (base acc : Nat) (ds es : List Char) :
    digitsFrom base acc (ds ++ es) = (digitsFrom base acc ds).bind fun v => digitsFrom base v es := by
  induction ds generalizing acc with
  | nil => rfl
  | cons c ds ih =>
    rw [List.cons_append, digitsFrom, digitsFrom]
    cases digitValue base c with
    | none => rfl
    | some v => exact ih _

theorem digitValue_digitChar {base d : Nat} (hb : base ≤ 16) (hd : d < base) :
    digitValue base (Nat.digitChar d) = some d := by
  have hall : ∀ base ≤ 16, ∀ d < base, digitValue base (Nat.digitChar d) = some d := by decide
  exact hall base hb d hd

/-- The digits of a number, most significant first, are read as the number: the last one goes on from the value of the
others. -/
theorem digitsFrom_toDigits {base : Nat} (h1 : 1 < base) (hb : base ≤ 16) (n : Nat) :
    digitsFrom base 0 (Nat.toDigits base n) = some n := by
  induction n using Nat.strongRecOn with
  | ind n ih =>
    obtain hlt | hle := Nat.lt_or_ge n base
    · simp [Nat.toDigits_of_lt_base hlt, digitsFrom, digitValue_digitChar hb hlt]
    · have hlast := digitValue_digitChar hb (Nat.mod_lt n (Nat.zero_lt_of_lt h1))
      have hrest := ih (n / base) (Nat.div_lt_self (by omega) h1)
      simp [Nat.toDigits_of_base_le h1 hle, digitsFrom_append, hrest, digitsFrom, hlast, Nat.div_add_mod']

/-- Without an `x` a text is no hexadecimal number. -/
theorem parseNumber_of_no_x {ds : List Char} (hne : ds ≠ []) (hx : 'x' ∉ ds) : parseNumber ds = digitsFrom 10 0 ds := by
  unfold parseNumber
  split <;> simp_all

theorem parseNumber_hex {ds : List Char} (hne : ds ≠ []) : parseNumber ('0' :: 'x' :: ds) = digitsFrom 16 0 ds := by
  cases ds with
  | nil => exact absurd rfl hne
  | cons d ds => rfl

/-- Settles O51: decimal digits hold no `x`, so each of the two spellings is read in its own base. -/
theorem assemblerReadsDecimalAndHexadecimal : Obligations.AssemblerReadsDecimalAndHexadecimal := by
  intro n
  have hx : 'x' ∉ Nat.toDigits 10 n := fun h =>
    absurd (Nat.isDigit_of_mem_toDigits (by decide) (by decide) h) (by decide)
  rw [parseNumber_of_no_x Nat.toDigits_ne_nil hx, parseNumber_hex Nat.toDigits_ne_nil]
  exact ⟨digitsFrom_toDigits (by decide) (by decide) n, digitsFrom_toDigits (by decide) (by decide) n⟩

/-! Operands and their fields (R80, R81). -/

theorem operand_fits {t : List Char} {max n : Nat} (h : parseNumber t = some n) (hn : n ≤ max) :
    operand max t = .ok n := by
  simp [operand, h, hn]

theorem operand_too_large {t : List Char} {max n : Nat} (h : parseNumber t = some n) (hn : max < n) :
    operand max t = .error .doesNotFit := by
  simp [operand, h, Nat.not_le.mpr hn]

section
variable {a b c : List Char} {x y z : Nat}
variable (ha : parseNumber a = some x) (hb : parseNumber b = some y) (hc : parseNumber c = some z)
include ha hb

theorem twoHalves_fits (i : Half → Half → Instr) (hx : x ≤ 65535) (hy : y ≤ 65535) :
    twoHalves i a b = .ok [i (BitVec.ofNat 16 x) (BitVec.ofNat 16 y)] := by
  rw [twoHalves, operand_fits ha hx, operand_fits hb hy]

/-- An operand that is a number is refused for its size alone, so it does not matter which of the two is too large. -/
theorem twoHalves_too_large (i : Half → Half → Instr) (h : 65535 < x ∨ 65535 < y) :
    twoHalves i a b = .error .doesNotFit := by
  obtain hx | hx := Nat.lt_or_ge 65535 x
  · rw [twoHalves, operand_too_large ha hx]
  · rw [twoHalves, operand_fits ha hx, operand_too_large hb (by omega)]

include hc

theorem asmCfg_fits (hx : x ≤ 255) (hy : y ≤ 255) (hz : z ≤ 15) :
    asmCfg a b c = .ok [.cfg (BitVec.ofNat 8 x) (BitVec.ofNat 8 y) (BitVec.ofNat 4 z)] := by
  rw [asmCfg, operand_fits ha hx, operand_fits hb hy, operand_fits hc hz]

theorem asmCfg_too_large (h : 255 < x ∨ 255 < y ∨ 15 < z) : asmCfg a b c = .error .doesNotFit := by
  obtain hx | hx := Nat.lt_or_ge 255 x
  · rw [asmCfg, operand_too_large ha hx]
  · obtain hy | hy := Nat.lt_or_ge 255 y
    · rw [asmCfg, operand_fits ha hx, operand_too_large hb hy]
    · rw [asmCfg, operand_fits ha hx, operand_fits hb hy, operand_too_large hc (by omega)]

end

/-- ROWS 0 is refused though it fits the field of a byte (R81). -/
theorem asmRows_zero {a : List Char} (ha : parseNumber a = some 0) : asmRows a = .error .doesNotFit := by
  simp [asmRows, operand_fits ha (Nat.zero_le 255)]

theorem asmRows_fits {a : List Char} {x : Nat} (ha : parseNumber a = some x) (h1 : 1 ≤ x) (hx : x ≤ 255) :
    asmRows a = .ok (List.replicate x .row) := by
  simp [asmRows, operand_fits ha hx, Nat.ne_of_gt h1]

theorem asmRows_too_large {a : List Char} {x : Nat} (ha : parseNumber a = some x) (hx : 255 < x) :
    asmRows a = .error .doesNotFit := by
  rw [asmRows, operand_too_large ha hx]

/-- Settles O52: each operand is tested against its own field, and no other test is made but that of ROWS 0. -/
theorem assemblerTakesOperandsThatFit : Obligations.AssemblerTakesOperandsThatFit := by
  intro a b c x y z ha hb hc
  refine ⟨fun ⟨hx, hy⟩ => ?_, fun h => ?_, fun ⟨hx, hy, hz⟩ => asmCfg_fits ha hb hc hx hy hz,
    asmCfg_too_large ha hb hc, fun ⟨h1, hx⟩ => asmRows_fits ha h1 hx, ?_⟩
  · have htwo (i : Half → Half → Instr) := twoHalves_fits ha hb i hx hy
    exact ⟨htwo .crc32, htwo .adupd, htwo .bind, by simp [asmCommand, asmAdler32, htwo]⟩
  · have htwo (i : Half → Half → Instr) := twoHalves_too_large ha hb i h
    exact ⟨htwo .crc32, htwo .adupd, htwo .bind, by simp [asmCommand, asmAdler32, htwo]⟩
  · rintro (rfl | hx)
    · exact asmRows_zero ha
    · exact asmRows_too_large ha hx

/-- Settles O50: fixed texts, assembled by evaluation. -/
theorem assemblerSpellsTheWorkedEncodings : Obligations.AssemblerSpellsTheWorkedEncodings := by
  unfold Obligations.AssemblerSpellsTheWorkedEncodings
  decide +kernel

end Sys2Proof.Machine
end

section
/-! PROOFS. The statements of the family 40_crc32.md: CRC_TABLE and the table-driven engine against the CRC computed bit
by bit (R91 to R96), and what CRC32 and CRCST do with their buffers (R92 to R94). -/

namespace Sys2Proof.Machine

/-! The table and its check values. -/

/-- Settles O25: 256 entries, each computed. -/
theorem crcTableIsTheReflectedTable : Obligations.CrcTableIsTheReflectedTable := by
  unfold Obligations.CrcTableIsTheReflectedTable
  decide +kernel

/-- Settles O27: five fixed sequences, their CRC computed. -/
theorem crcCheckValues : Obligations.CrcCheckValues := by
  unfold Obligations.CrcCheckValues
  decide +kernel

/-! The table-driven engine is the bit-serial one. -/

/-- Where the bits that leave are 0 the polynomial is never added, so the steps of R91 only shift. -/
theorem crcBitSteps_of_low_zero {n : Nat} {c : Word32} (h : ∀ i < n, c.getLsbD i = false) :
    crcBitSteps n c = c >>> n := by
  induction n generalizing c with
  | zero => rfl
  | succ n ih =>
    have hstep : crcBitStep c = c >>> 1 := by rw [crcBitStep, h 0 n.succ_pos, if_neg Bool.false_ne_true]
    have hlow : ∀ i < n, (c >>> 1).getLsbD i = false := fun i hi => by
      rw [BitVec.getLsbD_ushiftRight, Nat.add_comm]
      exact h (i + 1) (by omega)
    rw [crcBitSteps, hstep, ih hlow, ← BitVec.shiftRight_add, Nat.add_comm]

/-- A word is its low byte and the rest. -/
theorem low_byte_xor_rest (x : Word32) : (x.extractLsb' 0 8).setWidth 32 ^^^ (x >>> 8) <<< 8 = x := by
  ext i hi
  obtain h | h := Nat.lt_or_ge i 8
  · simp [h, BitVec.getLsbD_eq_getElem hi]
  · simp [Nat.not_lt.mpr h, Nat.add_sub_cancel' h, BitVec.getLsbD_eq_getElem hi]

/-- Eight steps of R91 on a word: the table's entry for the low byte, over the rest shifted down. The steps are linear,
so the two parts of the word go through on their own. -/
theorem crcBitSteps_eight (x : Word32) : crcBitSteps 8 x = crcEntry (x.extractLsb' 0 8) ^^^ (x >>> 8) := by
  have hrest : crcBitSteps 8 ((x >>> 8) <<< 8) = x >>> 8 := by
    rw [crcBitSteps_of_low_zero fun i hi => by simp [hi]]
    ext i hi
    simpa using BitVec.lt_of_getLsbD
  calc crcBitSteps 8 x
      = crcBitSteps 8 ((x.extractLsb' 0 8).setWidth 32) ^^^ crcBitSteps 8 ((x >>> 8) <<< 8) := by
        rw [← crcBitSteps_xor, low_byte_xor_rest]
    _ = crcEntry (x.extractLsb' 0 8) ^^^ (x >>> 8) := by rw [← crcTableIsTheReflectedTable.2, hrest]

/-- One turn of R92's loop is the byte shifted through bit by bit. -/
theorem crcByte_eq_crcBitSteps (c : Word32) (d : Byte) : crcByte c d = crcBitSteps 8 (c ^^^ d.setWidth 32) := by
  have hshift : (c ^^^ d.setWidth 32) >>> 8 = c >>> 8 := by
    ext i hi
    simp
  rw [crcBitSteps_eight, hshift, crcByte]

/-- Settles O26: the two loops take the same turn on every byte. -/
theorem tableDrivenCrcIsBitSerialCrc : Obligations.TableDrivenCrcIsBitSerialCrc := by
  intro bytes
  have hturn : crcByte = fun c d => crcBitSteps 8 (c ^^^ d.setWidth 32) :=
    funext fun c => funext (crcByte_eq_crcBitSteps c)
  rw [crcOf, crcRun, hturn, crcBitSerial]

/-! CRC32 (R92). -/

theorem accessesAdmitted_of_admitsEverything {s : State} (h : AdmitsEverything s) (i : Instr) : AccessesAdmitted i s :=
  (admitted_iff i s).mp (admitted_of_admitsEverything h i)

/-- CRC32 is never refused and has no operand to test. -/
theorem exec_crc32 {addr len : Half} {s : State} (ha : AccessesAdmitted (.crc32 addr len) s) :
    exec (.crc32 addr len) s = .next (s.crc32Effect addr len) :=
  exec_completes rfl id ha

/-- Settles O24: the statement writes out the CRC of the buffer. -/
theorem crc32GivesTheCrcOfTheBuffer : Obligations.Crc32GivesTheCrcOfTheBuffer :=
  fun _ _ _ ha => exec_crc32 ha

/-- Settles O28: buffers of equal bytes are one list, and the results are its CRC. -/
theorem crcDependsOnTheBytesAlone : Obligations.CrcDependsOnTheBytesAlone := by
  intro s u a b len hs hu hbytes
  refine ⟨_, _, exec_crc32 hs, exec_crc32 hu, ?_⟩
  simp [State.crc32Effect, buffer_congr hbytes]

/-! Stores at the cursor as buffers, for CRCST (R93). -/

/-- A store at the cursor leaves its value big-endian in the four cells from PDST. -/
theorem buffer_storeAtCursor {s : State} (w : Word32) (hs : s.mem.wf = true) :
    (s.storeAtCursor w).buffer s.pdst 4 = bigEndian w := by
  refine List.ext_getElem (length_buffer _ _ _) fun i hi _ => ?_
  rw [length_buffer] at hi
  rw [buffer_getElem, memRead_storeAtCursor_inside w hs i hi]

/-- A store at the cursor leaves a buffer that ends at PDST alone: the four cells do not come round to its start. -/
theorem buffer_storeAtCursor_before {s : State} {a : Address} {n : Nat} (w : Word32) (hp : s.pdst = a + addrOf n)
    (hn : n + 4 ≤ 65536) : (s.storeAtCursor w).buffer a n = s.buffer a n := by
  refine buffer_congr fun i hi => memRead_storeAtCursor_outside s w ?_
  rw [hp, InSpan]
  bv_omega

theorem exec_crcst {s : State} (hb : s.status.bound = true) (ha : AccessesAdmitted .crcst s) :
    exec .crcst s = .next (s.storeAtCursor s.crcr) :=
  exec_completes rfl (by simp [RefusalHolds, hb]) ha

/-- Settles O29: the bytes of R52, cell by cell, and the frame of the shared store. -/
theorem crcstStoresCrcrBigEndian : Obligations.CrcstStoresCrcrBigEndian := by
  refine ⟨fun s hs hb ha => ?_, fun s hb => exec_refused hb⟩
  have hcell := memRead_storeAtCursor_inside s.crcr hs
  refine ⟨_, exec_crcst hb ha, ?_, hcell 1 (by omega), hcell 2 (by omega), hcell 3 (by omega),
    fun c => memRead_storeAtCursor_outside s s.crcr, ?_⟩
  · have h0 := hcell 0 (by omega)
    rwa [BitVec.add_zero] at h0
  · rw [storeAtCursor_eq]

/-- Settles O30: CRCST's cells are the four that follow the buffer. -/
theorem chunkIsFollowedByItsCrc : Obligations.ChunkIsFollowedByItsCrc := by
  intro s a len hs hadm hb hp hlen
  have hp' : s.pdst = a + addrOf len.toNat := by rw [hp, addrOf, BitVec.ofNat_toNat, BitVec.setWidth_eq]
  have hread := accessesAdmitted_of_admitsEverything hadm (.crc32 a len)
  have hwrite := accessesAdmitted_of_admitsEverything (s := s.crc32Effect a len) hadm .crcst
  refine ⟨_, _, exec_crc32 hread, exec_crcst hb hwrite, buffer_storeAtCursor_before _ hp' hlen, ?_, ?_⟩
  · rw [← hp]
    exact buffer_storeAtCursor (s := s.crc32Effect a len) _ hs
  · rw [storeAtCursor_eq, ← hp]
    rfl

end Sys2Proof.Machine
end

section
/-! PROOFS. The statements of the family 41_adler32.md: the Adler pair as sums taken modulo 65521 (R102, R106), and what
ADRST, ADUPD and ADST do (R101, R103 to R107). -/

namespace Sys2Proof.Machine

/-! The pair and its word (R102, R105). -/

theorem adlerPair_eq_iff (s t : State) : s.adlerPair = t.adlerPair ↔ s.ada = t.ada ∧ s.adb = t.adb := by
  rw [State.adlerPair, State.adlerPair, Prod.mk.injEq, BitVec.toNat_inj, BitVec.toNat_inj]

/-- Settles O32: the update of the registers is the update of numbers, and `adlerByte` names the pair alone. -/
theorem adlerByteUpdatesThePair : Obligations.AdlerByteUpdatesThePair := by
  intro s v
  have hpair := adlerPair_adlerByte s v
  exact ⟨congrArg Prod.fst hpair, congrArg Prod.snd hpair, rfl⟩

/-- The bytes of the Adler word as R104 names them: the `b` half first (R105). -/
theorem bigEndian_adlerWord (s : State) :
    bigEndian s.adlerWord =
      [s.adb.extractLsb 15 8, s.adb.extractLsb 7 0, s.ada.extractLsb 15 8, s.ada.extractLsb 7 0] := by
  have hword := adlerWord_toNat s
  have ha := s.ada.isLt
  simp only [bigEndian, List.cons.injEq, and_true]
  refine ⟨?_, ?_, ?_, ?_⟩ <;> apply BitVec.eq_of_toNat_eq <;>
    simp only [BitVec.extractLsb'_toNat, BitVec.extractLsb_toNat, hword, Nat.shiftRight_eq_div_pow] <;> omega

/-! The sums of R106. -/

theorem byteSum_append (m n : List Byte) : byteSum (m ++ n) = byteSum m + byteSum n := by
  induction m with
  | nil => simp [byteSum]
  | cons v m ih => simp only [List.cons_append, byteSum, ih, Nat.add_assoc]

/-- Each byte of the first part has all bytes of the second after it. -/
theorem weightedByteSum_append (m n : List Byte) :
    weightedByteSum (m ++ n) = weightedByteSum m + n.length * byteSum m + weightedByteSum n := by
  induction m with
  | nil => simp [weightedByteSum, byteSum]
  | cons v m ih =>
    simp only [List.cons_append, weightedByteSum, byteSum, List.length_append, ih]
    ring

/-- The deferred form, from any pair: the remainder taken once at the end is that of R102 taken at every byte. -/
theorem adlerPairRun_modEq (p : Nat × Nat) (bs : List Byte) :
    (adlerPairRun p bs).1 ≡ p.1 + byteSum bs [MOD 65521] ∧
      (adlerPairRun p bs).2 ≡ p.2 + bs.length * p.1 + weightedByteSum bs [MOD 65521] := by
  induction bs generalizing p with
  | nil => simp [adlerPairRun, byteSum, weightedByteSum, Nat.ModEq.refl]
  | cons v bs ih =>
    obtain ⟨iha, ihb⟩ := ih (adlerPairStep p v)
    have hrun : adlerPairRun p (v :: bs) = adlerPairRun (adlerPairStep p v) bs := rfl
    have ha : (adlerPairStep p v).1 ≡ p.1 + v.toNat [MOD 65521] := Nat.mod_modEq _ _
    have hb : (adlerPairStep p v).2 ≡ p.2 + (p.1 + v.toNat) [MOD 65521] :=
      (Nat.mod_modEq _ _).trans (ha.add_left p.2)
    rw [hrun]
    constructor
    · calc (adlerPairRun (adlerPairStep p v) bs).1
          ≡ (adlerPairStep p v).1 + byteSum bs [MOD 65521] := iha
        _ ≡ p.1 + v.toNat + byteSum bs [MOD 65521] := ha.add_right _
        _ = p.1 + byteSum (v :: bs) := Nat.add_assoc _ _ _
    · calc (adlerPairRun (adlerPairStep p v) bs).2
          ≡ (adlerPairStep p v).2 + bs.length * (adlerPairStep p v).1 + weightedByteSum bs [MOD 65521] := ihb
        _ ≡ p.2 + (p.1 + v.toNat) + bs.length * (p.1 + v.toNat) + weightedByteSum bs [MOD 65521] :=
          (hb.add (ha.mul_left _)).add_right _
        _ = p.2 + (v :: bs).length * p.1 + weightedByteSum (v :: bs) := by
          simp only [weightedByteSum, List.length_cons]
          ring

/-! Two bytes exchanged (R106 (c)). -/

theorem byteSum_exchange (m n r : List Byte) (x y : Byte) :
    byteSum (m ++ y :: (n ++ x :: r)) = byteSum (m ++ x :: (n ++ y :: r)) := by
  simp only [byteSum_append, byteSum]
  omega

/-- The weights of the two places are `n.length + 1` apart. -/
theorem weightedByteSum_exchange (m n r : List Byte) (x y : Byte) :
    weightedByteSum (m ++ y :: (n ++ x :: r)) + (n.length + 1) * x.toNat =
      weightedByteSum (m ++ x :: (n ++ y :: r)) + (n.length + 1) * y.toNat := by
  simp only [weightedByteSum_append, weightedByteSum, List.length_append, List.length_cons]
  ring

theorem add_addrOf_addrOf (a : Address) (m n : Nat) : a + addrOf m + addrOf n = a + addrOf (m + n) := by
  rw [addrOf, addrOf, addrOf, BitVec.ofNat_add, BitVec.add_assoc]

theorem add_addrOf_succ (a : Address) (n : Nat) : a + addrOf n + 1 = a + addrOf (n + 1) :=
  add_addrOf_addrOf a n 1

/-- A buffer cut at two of its cells, `j + 1` apart. -/
theorem buffer_cut (s : State) (a : Address) (i j r : Nat) :
    s.buffer a (i + (1 + (j + (1 + r)))) =
      s.buffer a i ++ s.memRead (a + addrOf i) ::
        (s.buffer (a + addrOf (i + 1)) j ++
          s.memRead (a + addrOf (i + (j + 1))) :: s.buffer (a + addrOf (i + (j + 1) + 1)) r) := by
  rw [buffer_append, buffer_cons, buffer_append, buffer_cons, add_addrOf_succ, add_addrOf_addrOf, add_addrOf_succ,
    Nat.add_assoc i 1 j, Nat.add_comm 1 j]

/-- A part of a buffer depends on its own cells alone. -/
theorem buffer_congr_from {s u : State} {a : Address} {c n : Nat}
    (h : ∀ j, c ≤ j → j < c + n → u.memRead (a + addrOf j) = s.memRead (a + addrOf j)) :
    u.buffer (a + addrOf c) n = s.buffer (a + addrOf c) n := by
  refine buffer_congr fun j hj => ?_
  rw [add_addrOf_addrOf]
  exact h (c + j) (by omega) (by omega)

/-- A buffer with the bytes at `i` and `i + k` exchanged has the same sum, and the weighted sum moves by `k` times the
bytes' difference. -/
theorem sums_of_exchanged_buffer {s u : State} {a : Address} {n i k : Nat} (hk : i + k < n)
    (hfst : u.memRead (a + addrOf i) = s.memRead (a + addrOf (i + k)))
    (hsnd : u.memRead (a + addrOf (i + k)) = s.memRead (a + addrOf i))
    (hrest : ∀ j < n, j ≠ i → j ≠ i + k → u.memRead (a + addrOf j) = s.memRead (a + addrOf j)) :
    byteSum (u.buffer a n) = byteSum (s.buffer a n) ∧
      weightedByteSum (u.buffer a n) + k * (s.memRead (a + addrOf i)).toNat =
        weightedByteSum (s.buffer a n) + k * (s.memRead (a + addrOf (i + k))).toNat := by
  cases k with
  | zero =>
    have hall : u.buffer a n = s.buffer a n := buffer_congr fun j hj => by
      by_cases hji : j = i
      · rw [hji]
        exact hfst
      · exact hrest j hj hji hji
    rw [hall]
    exact ⟨rfl, rfl⟩
  | succ j =>
    obtain ⟨r, rfl⟩ : ∃ r, n = i + (1 + (j + (1 + r))) := ⟨n - (i + (j + 1) + 1), by omega⟩
    have hbefore : u.buffer a i = s.buffer a i :=
      buffer_congr fun c hc => hrest c (by omega) (by omega) (by omega)
    have hbetween : u.buffer (a + addrOf (i + 1)) j = s.buffer (a + addrOf (i + 1)) j :=
      buffer_congr_from fun c hlo hhi => hrest c (by omega) (by omega) (by omega)
    have hafter : u.buffer (a + addrOf (i + (j + 1) + 1)) r = s.buffer (a + addrOf (i + (j + 1) + 1)) r :=
      buffer_congr_from fun c hlo hhi => hrest c (by omega) (by omega) (by omega)
    rw [buffer_cut, buffer_cut, hfst, hsnd, hbefore, hbetween, hafter]
    have hweighted := weightedByteSum_exchange (s.buffer a i) (s.buffer (a + addrOf (i + 1)) j)
      (s.buffer (a + addrOf (i + (j + 1) + 1)) r) (s.memRead (a + addrOf i)) (s.memRead (a + addrOf (i + (j + 1))))
    rw [length_buffer] at hweighted
    exact ⟨byteSum_exchange _ _ _ _ _, hweighted⟩

/-- 65521 is prime and above every byte, so a factor it does not divide tells the bytes apart. -/
theorem byte_eq_of_mul_modEq {k c : Nat} {x y : Byte} (hk : ¬ 65521 ∣ k)
    (h : c + k * x.toNat ≡ c + k * y.toNat [MOD 65521]) : x = y := by
  have hprime : Nat.Prime 65521 := by norm_num
  have hxy : x.toNat ≡ y.toNat [MOD 65521] :=
    (h.add_left_cancel' c).cancel_left_of_coprime (hprime.coprime_iff_not_dvd.mpr hk)
  exact BitVec.eq_of_toNat_eq (hxy.eq_of_lt_of_lt (by omega) (by omega))

/-! ADRST and ADUPD (R101, R103). -/

theorem exec_adrst (s : State) : exec .adrst s = .next (effect .adrst s) := rfl

/-- ADUPD is never refused and has no operand to test. -/
theorem exec_adupd {addr len : Half} {s : State} (ha : AccessesAdmitted (.adupd addr len) s) :
    exec (.adupd addr len) s = .next (effect (.adupd addr len) s) :=
  exec_completes rfl id ha

/-- ADUPD's pair is R102 on numbers over the buffer (R103). -/
theorem adlerPair_effect_adupd (addr len : Half) (s : State) :
    (effect (.adupd addr len) s).adlerPair = adlerPairRun s.adlerPair (s.buffer addr len.toNat) :=
  adlerPair_adlerBytes s _

theorem ret_effect_adupd (addr len : Half) (s : State) :
    (effect (.adupd addr len) s).ret = (effect (.adupd addr len) s).adlerWord := rfl

/-- ADRST leaves memory and `MEM_ADMIT` alone. -/
theorem accessesAdmitted_adupd_after_adrst {addr len : Half} {s : State} (h : AccessesAdmitted (.adupd addr len) s) :
    AccessesAdmitted (.adupd addr len) (effect .adrst s) := h

theorem adlerPair_adrst_adupd (addr len : Half) (s : State) :
    (effect (.adupd addr len) (effect .adrst s)).adlerPair = adlerPairRun (1, 0) (s.buffer addr len.toNat) :=
  adlerPair_effect_adupd addr len (effect .adrst s)

/-- Settles O31: the effect of ADRST, written out. -/
theorem adrstResetsThePair : Obligations.AdrstResetsThePair := exec_adrst

/-- Settles O33: ADUPD's pair is R102 on numbers over the buffer, and its response the pair's word. -/
theorem adupdUpdatesThePairOverTheBuffer : Obligations.AdupdUpdatesThePairOverTheBuffer := by
  intro s addr len ha p
  have hpair : (effect (.adupd addr len) s).adlerPair = p := adlerPair_effect_adupd addr len s
  have hada := congrArg Prod.fst hpair
  have hadb := congrArg Prod.snd hpair
  refine ⟨_, exec_adupd ha, hada, hadb, ?_, ?_⟩
  · rw [ret_effect_adupd, adlerWord_toNat, ← hada, ← hadb]
    rfl
  · rw [effect_adupd]

/-- Settles O34: the deferred form from the pair (1, 0), both halves in range so that the remainder is the half itself. -/
theorem adlerIsTheDeferredModuloForm : Obligations.AdlerIsTheDeferredModuloForm := by
  intro s addr len ha
  refine ⟨_, _, exec_adrst s, exec_adupd (accessesAdmitted_adupd_after_adrst ha), ?_⟩
  obtain ⟨hada, hadb⟩ := adlerPairRun_modEq (1, 0) (s.buffer addr len.toNat)
  rw [← adlerPair_adrst_adupd] at hada hadb
  obtain ⟨hla, hlb⟩ := effect_reduced (.adupd addr len) (adrst_reduced s)
  constructor
  · rw [← hada]
    exact (Nat.mod_eq_of_lt (Nat.lt_succ_of_le hla)).symm
  · rw [length_buffer, Nat.zero_add, Nat.mul_one] at hadb
    rw [← hadb]
    exact (Nat.mod_eq_of_lt (Nat.lt_succ_of_le hlb)).symm

/-- ADUPD's admission is that of its buffer's reads. -/
theorem accessesAdmitted_adupd_iff (addr len : Half) (s : State) :
    AccessesAdmitted (.adupd addr len) s ↔ ∀ c, InSpan addr len.toNat c → s.admits .read c = true :=
  and_iff_right fun c hc => absurd hc (not_inSpan_zero s.pdst c)

/-- Settles O35: the buffer is the two parts in turn, and so is the run over it. -/
theorem adupdContinuesTheChecksum : Obligations.AdupdContinuesTheChecksum := by
  intro s addr m n hmn ha
  have hlen : (m + n).toNat = m.toNat + n.toNat := by bv_omega
  have hreads := (accessesAdmitted_adupd_iff addr (m + n) s).mp ha
  have hfirst : AccessesAdmitted (.adupd addr m) s :=
    (accessesAdmitted_adupd_iff addr m s).mpr fun c hc => hreads c (by rw [InSpan] at *; omega)
  have hsecond : AccessesAdmitted (.adupd (addr + m) n) (effect (.adupd addr m) s) := by
    refine (accessesAdmitted_adupd_iff (addr + m) n _).mpr fun c hc => ?_
    rw [effect_adupd]
    exact hreads c (by rw [InSpan] at *; bv_omega)
  have hbuffer : s.buffer addr (m + n).toNat =
      s.buffer addr m.toNat ++ (effect (.adupd addr m) s).buffer (addr + m) n.toNat := by
    rw [hlen, buffer_append, addrOf, BitVec.ofNat_toNat, BitVec.setWidth_eq, effect_adupd]
    rfl
  have hpair : (effect (.adupd (addr + m) n) (effect (.adupd addr m) s)).adlerPair =
      (effect (.adupd addr (m + n)) s).adlerPair := by
    rw [adlerPair_effect_adupd, adlerPair_effect_adupd, adlerPair_effect_adupd, hbuffer, adlerPairRun_append]
  obtain ⟨hada, hadb⟩ := (adlerPair_eq_iff _ _).mp hpair
  refine ⟨_, _, _, exec_adupd hfirst, exec_adupd hsecond, exec_adupd ha, hada, hadb, ?_⟩
  rw [ret_effect_adupd, ret_effect_adupd, State.adlerWord, State.adlerWord, hada, hadb]

/-- The pair after ADUPD over a buffer that is not empty is in range, whatever it was (R28). -/
theorem effect_adupd_reduced (addr len : Half) (s : State) (h : 0 < len.toNat) :
    AdlerReduced (effect (.adupd addr len) s) := by
  obtain ⟨n, hn⟩ : ∃ n, len.toNat = 1 + n := ⟨len.toNat - 1, by omega⟩
  rw [effect_adupd, hn, buffer_cons, adlerBytes_cons]
  exact adlerBytes_reduced _ (adlerByte_reduced s _)

/-- Settles O36: in the deferred form the exchange leaves ADA's sum and moves ADB's by `k` times the difference. -/
theorem adlerSeesAnExchangeOfTwoBytes : Obligations.AdlerSeesAnExchangeOfTwoBytes := by
  intro s u addr len i k hk hs hu hada hadb cell hfst hsnd hrest
  obtain ⟨hsum, hweighted⟩ := sums_of_exchanged_buffer hk hfst hsnd hrest
  obtain ⟨hsa, hsb⟩ := adlerPairRun_modEq s.adlerPair (s.buffer addr len.toNat)
  obtain ⟨hua, hub⟩ := adlerPairRun_modEq u.adlerPair (u.buffer addr len.toNat)
  rw [← adlerPair_effect_adupd, length_buffer] at hsb hub
  rw [← adlerPair_effect_adupd] at hsa hua
  rw [(adlerPair_eq_iff u s).mpr ⟨hada, hadb⟩] at hua hub
  rw [hsum] at hua
  have hmoved : (effect (.adupd addr len) u).adb.toNat + k * (s.memRead (cell i)).toNat ≡
      (effect (.adupd addr len) s).adb.toNat + k * (s.memRead (cell (i + k))).toNat [MOD 65521] := by
    refine (hub.add_right _).trans (Nat.ModEq.trans ?_ (hsb.add_right _).symm)
    rw [Nat.add_assoc, hweighted, ← Nat.add_assoc]
  refine ⟨_, _, exec_adupd hs, exec_adupd hu, ?_, hmoved, fun hne hdvd heq => ?_⟩
  · have hlt (w : State) : (effect (.adupd addr len) w).ada.toNat < 65521 :=
      Nat.lt_succ_of_le (effect_adupd_reduced addr len w (by omega)).1
    exact BitVec.eq_of_toNat_eq ((hua.trans hsa.symm).eq_of_lt_of_lt (hlt u) (hlt s))
  · rw [heq] at hmoved
    exact hne (byte_eq_of_mul_modEq hdvd hmoved)

/-- ADRST and ADUPD over a buffer that holds `bytes` respond with the word of their Adler-32. -/
theorem ret_adrst_adupd {s : State} {addr : Half} {bytes : List Byte} {w : Word32} (hs : AdmitsEverything s)
    (hlen : bytes.length < 65536)
    (hw : (adlerPairRun (1, 0) bytes).2 * 65536 + (adlerPairRun (1, 0) bytes).1 = w.toNat)
    (hbuf : s.buffer addr bytes.length = bytes) :
    ∃ t u, exec .adrst s = .next t ∧ exec (.adupd addr (BitVec.ofNat 16 bytes.length)) t = .next u ∧ u.ret = w := by
  have hn : (BitVec.ofNat 16 bytes.length).toNat = bytes.length := by
    rw [BitVec.toNat_ofNat, Nat.mod_eq_of_lt hlen]
  have hpair := adlerPair_adrst_adupd addr (BitVec.ofNat 16 bytes.length) s
  rw [hn, hbuf] at hpair
  have hreads := accessesAdmitted_of_admitsEverything hs (.adupd addr (BitVec.ofNat 16 bytes.length))
  refine ⟨_, _, exec_adrst s, exec_adupd (accessesAdmitted_adupd_after_adrst hreads), BitVec.eq_of_toNat_eq ?_⟩
  rw [ret_effect_adupd, adlerWord_toNat, ← hw, ← hpair]
  rfl

/-- Settles O38: the Adler-32 of four fixed sequences, computed. -/
theorem adlerCheckValues : Obligations.AdlerCheckValues := by
  intro s addr hs checks
  exact ⟨ret_adrst_adupd hs (by decide) (by decide), ret_adrst_adupd hs (by decide) (by decide),
    ret_adrst_adupd hs (by decide) (by decide), ret_adrst_adupd hs (by decide) (by decide)⟩

/-! ADST (R104). -/

theorem exec_adst {s : State} (hb : s.status.bound = true) (ha : AccessesAdmitted .adst s) :
    exec .adst s = .next (s.storeAtCursor s.adlerWord) :=
  exec_completes rfl (by simp [RefusalHolds, hb]) ha

/-- Settles O37: the shared store at the cursor, its value the Adler word. -/
theorem adstStoresTheAdlerWord : Obligations.AdstStoresTheAdlerWord := by
  refine ⟨fun s hs hb ha => ?_, fun s hb => exec_refused hb⟩
  have hcell := memRead_storeAtCursor_inside s.adlerWord hs
  simp only [bigEndian_adlerWord] at hcell
  refine ⟨_, exec_adst hb ha, ?_, hcell 1 (by omega), hcell 2 (by omega), hcell 3 (by omega),
    fun c => memRead_storeAtCursor_outside s s.adlerWord, ?_⟩
  · have h0 := hcell 0 (by omega)
    rwa [BitVec.add_zero] at h0
  · rw [storeAtCursor_eq]

end Sys2Proof.Machine
end

section
/-! PROOFS. The statements of the family 42_row_serializer.md: CFG and BIND (R111, R112), what one ROW writes, checksums
and leaves in the registers (R113 to R116), and the rows of an image in turn (R117, R118). -/

namespace Sys2Proof.Machine

/-! CFG and BIND. -/

/-- Settles O39: the tests of CFG are the conditions of R111, and a reserved bit makes the word illegal (R77). -/
theorem cfgSetsOrRejectsTheConfiguration : Obligations.CfgSetsOrRejectsTheConfiguration := by
  intro s w h d
  have hlegal := legalConfig_iff w h d
  refine ⟨fun hc => ?_, fun hc => ?_, fun cw hop hb => ?_⟩
  · rw [exec, execCfg, if_pos (hlegal.mpr hc)]
    rfl
  · have hill : (Instr.cfg w h d).wellFormed = false := by
      rw [Instr.wellFormed, ← Bool.not_eq_true, hlegal]
      rintro ⟨hw, hh, hd⟩
      obtain hw0 | hh0 | hd0 := hc
      · omega
      · omega
      · exact hd0 hd
    exact exec_illFormed hill
  · exact (illegalWordsAreCommandErrors cw).1 (.inr (.inl (.inr (.inr ⟨hop, hb⟩)))) s

theorem exec_bind (src dst : Half) (s : State) : exec (.bind src dst) s = .next (effect (.bind src dst) s) := rfl

/-- Settles O40: the effect of BIND, written out. -/
theorem bindSetsTheCursors : Obligations.BindSetsTheCursors :=
  fun s src dst => exec_bind src dst s

/-! One row: the registers, one lemma per field that the rules speak of (R115). -/

@[simp] theorem rowEffect_psrc (s : State) (p : Byte) : (s.rowEffect p).psrc = s.psrc + addrOf s.width.toNat := by
  rw [rowEffect_eq]
@[simp] theorem rowEffect_pdst (s : State) (p : Byte) : (s.rowEffect p).pdst = s.pdst + addrOf (6 + s.rowBytes) := by
  rw [rowEffect_eq]
@[simp] theorem rowEffect_ret (s : State) (p : Byte) : (s.rowEffect p).ret = BitVec.ofNat 32 (6 + s.rowBytes) := by
  rw [rowEffect_eq]
@[simp] theorem rowEffect_status (s : State) (p : Byte) : (s.rowEffect p).status = s.status.emitRow s.lastRow := by
  rw [rowEffect_eq]
@[simp] theorem rowEffect_width (s : State) (p : Byte) : (s.rowEffect p).width = s.width := by rw [rowEffect_eq]
@[simp] theorem rowEffect_height (s : State) (p : Byte) : (s.rowEffect p).height = s.height := by rw [rowEffect_eq]
@[simp] theorem rowEffect_bpp (s : State) (p : Byte) : (s.rowEffect p).bpp = s.bpp := by rw [rowEffect_eq]
@[simp] theorem rowEffect_rowcnt (s : State) (p : Byte) : (s.rowEffect p).rowcnt = s.rowcnt + 1 := by
  rw [rowEffect_eq]
@[simp] theorem rowEffect_received (s : State) (p : Byte) :
    (s.rowEffect p).received = s.responses (BitVec.ofNat 32 (6 + s.rowBytes)) := by rw [rowEffect_eq]
@[simp] theorem rowEffect_memAdmit (s : State) (p : Byte) : (s.rowEffect p).memAdmit = s.memAdmit := by
  rw [rowEffect_eq]
@[simp] theorem rowEffect_padIndex (s : State) (p : Byte) : (s.rowEffect p).padIndex = s.padIndex + 1 := by
  rw [rowEffect_eq]

@[simp] theorem rowEffect_rowBytes (s : State) (p : Byte) : (s.rowEffect p).rowBytes = s.rowBytes := by
  rw [State.rowBytes, rowEffect_width, rowEffect_bpp, State.rowBytes]

theorem ret_rowEffect_toNat (s : State) (p : Byte) : (s.rowEffect p).ret.toNat = 6 + s.rowBytes := by
  have := rowBytes_le s
  rw [rowEffect_ret, BitVec.toNat_ofNat]
  omega

/-- ROWCNT does not wrap while it is below HEIGHT. -/
theorem rowcnt_rowEffect_toNat {s : State} (p : Byte) (h : s.rowcnt.toNat < s.height.toNat) :
    (s.rowEffect p).rowcnt.toNat = s.rowcnt.toNat + 1 := by
  have := s.height.isLt
  rw [rowEffect_rowcnt]
  bv_omega

/-! One row: memory. -/

/-- After the whole row memory is as the packing loop left it: the registers come last (R115). -/
theorem memRead_rowEffect (s : State) (p : Byte) (c : Address) :
    (s.rowEffect p).memRead c = (rowPrefix s p s.rowBytes).memRead c := by
  rw [rowEffect_eq, writeRow_eq_rowPrefix]
  rfl

theorem wf_rowEffect {s : State} (p : Byte) (hs : s.mem.wf = true) : (s.rowEffect p).mem.wf = true := by
  rw [rowEffect_eq]
  exact wf_rowPrefix p s.rowBytes hs

/-- A row writes its own `6 + rb` cells alone. -/
theorem memRead_rowEffect_outside (s : State) (p : Byte) {c : Address} (h : ¬ InSpan s.pdst (6 + s.rowBytes) c) :
    (s.rowEffect p).memRead c = s.memRead c := by
  have := rowBytes_le s
  rw [memRead_rowEffect, memRead_rowPrefix_outside s p _ (by omega) c (Nat.le_of_not_lt h)]

theorem memRead_rowEffect_filter {s : State} (p : Byte) (hs : s.mem.wf = true) :
    (s.rowEffect p).memRead (s.pdst + addrOf 5) = filterByte := by
  have := rowBytes_le s
  rw [memRead_rowEffect, memRead_rowPrefix_filter p (by omega) hs]

theorem memRead_rowEffect_packed {s : State} (p : Byte) (hs : s.mem.wf = true) {j : Nat} (hj : j < s.rowBytes) :
    (s.rowEffect p).memRead (s.pdst + addrOf (6 + j)) = (rowPrefix s p j).packedByte p j := by
  have := rowBytes_le s
  rw [memRead_rowEffect, memRead_rowPrefix_packed p hj (by omega) hs]

theorem blockLength_toNat (s : State) : s.blockLength.toNat = s.rowBytes + 1 := by
  have := rowBytes_le s
  rw [State.blockLength, BitVec.toNat_ofNat]
  omega

/-- The low byte of a 16-bit field comes first (20_memory.md R52). -/
theorem littleEndian_toNat (h : Half) :
    (littleEndian h).map BitVec.toNat = [h.toNat % 256, h.toNat / 256] := by
  have hhigh : h.toNat / 2 ^ 8 % 2 ^ 8 = h.toNat / 256 := by
    have := h.isLt
    omega
  simp only [littleEndian, List.map_cons, List.map_nil, BitVec.extractLsb'_toNat, Nat.shiftRight_eq_div_pow, hhigh,
    Nat.pow_zero, Nat.div_one]

/-- The five header bytes as numbers (R113). -/
theorem rowHeader_toNat (s : State) :
    s.rowHeader.map BitVec.toNat =
      [if s.rowcnt.toNat + 1 = s.height.toNat then 1 else 0, (s.rowBytes + 1) % 256, (s.rowBytes + 1) / 256,
        (65535 - (s.rowBytes + 1)) % 256, (65535 - (s.rowBytes + 1)) / 256] := by
  have hnot : (~~~ s.blockLength).toNat = 65535 - (s.rowBytes + 1) := by
    rw [BitVec.toNat_not, blockLength_toNat]
  rw [State.rowHeader, List.map_cons, List.map_append, littleEndian_toNat, littleEndian_toNat, blockLength_toNat, hnot]
  simp only [State.lastRow, decide_eq_true_iff, List.cons_append, List.nil_append]
  split <;> rfl

/-- Byte `i` of the header stands at offset `i` from PDST. -/
theorem memRead_rowEffect_header {s : State} (p : Byte) (hs : s.mem.wf = true) {i : Nat} (hi : i < 5) :
    ((s.rowEffect p).memRead (s.pdst + addrOf i)).toNat =
      (s.rowHeader.map BitVec.toNat)[i]'(by rwa [List.length_map, length_rowHeader]) := by
  have := rowBytes_le s
  rw [memRead_rowEffect, memRead_rowPrefix_header p (by rwa [length_rowHeader]) (by omega) hs, List.getElem_map]

/-- Settles O42: the header bytes of R113 at offsets 0 to 4, the filter byte at offset 5. -/
theorem rowWritesHeaderAndFilterByte : Obligations.RowWritesHeaderAndFilterByte := by
  intro s t hs hr h blen
  obtain ⟨-, rfl⟩ := exec_next_effect rfl hr h
  have header {i : Nat} (hi : i < 5) := memRead_rowEffect_header (Config.pad s.padIndex) hs hi
  simp only [rowHeader_toNat] at header
  have h0 := header (i := 0) (by decide)
  rw [BitVec.add_zero] at h0
  exact ⟨h0, header (i := 1) (by decide), header (i := 2) (by decide), header (i := 3) (by decide),
    header (i := 4) (by decide), congrArg BitVec.toNat (memRead_rowEffect_filter (Config.pad s.padIndex) hs)⟩

/-! One row: registers and frame together (R115). -/

/-- Settles O41: the registers after a row, and the frame of its writes. -/
theorem rowAdvancesTheRegisters : Obligations.RowAdvancesTheRegisters := by
  intro s hi hcfgd hbound hdone ha rb
  have hr : ¬ RefusalHolds .row s := by simp [RefusalHolds, hcfgd, hbound, hdone]
  have hcnt := (config_of_not_refused hi hr).2
  refine ⟨s.rowEffect (Config.pad s.padIndex), exec_completes rfl hr ha, ?_, ?_, rowcnt_rowEffect_toNat _ hcnt, ?_,
    ret_rowEffect_toNat s _, ?_, rowEffect_padIndex s _, fun c hc => memRead_rowEffect_outside s _ hc, ?_⟩
  · rw [rowEffect_psrc, BitVec.toNat_add, BitVec.toNat_ofNat, Nat.add_mod_mod]
  · rw [rowEffect_pdst, BitVec.toNat_add, BitVec.toNat_ofNat, Nat.add_mod_mod]
    rfl
  · rw [rowEffect_status, emitRow_done, hdone, Bool.false_or, State.lastRow, decide_eq_true_iff]
  · rw [rowEffect_received, rowEffect_ret]
  · rw [rowEffect_eq]
    rfl

/-! One row: the packed bytes (R114, R116). -/

/-- Field `k` of packed byte `j` is the pixel field the packing loop computed at its turn `j`. -/
theorem packedField_rowEffect {s : State} (p : Byte) (hs : s.mem.wf = true) (hb : s.bpp.toNat ∈ [1, 2, 4, 8])
    {j k : Nat} (hj : j < s.rowBytes) (hk : k < 8 / s.bpp.toNat) :
    packedField ((s.rowEffect p).memRead (s.pdst + addrOf (6 + j))) s.bpp.toNat k =
      ((rowPrefix s p j).pixelField p (j * (8 / s.bpp.toNat) + k) k).toNat := by
  rw [memRead_rowEffect_packed p hs hj]
  have hbyte := packedField_packedByte (s := rowPrefix s p j) (by rwa [rowPrefix_bpp]) p j k
  rw [rowPrefix_bpp] at hbyte
  exact hbyte hk

/-- Settles O43: at turn `j` of the loop memory holds the row's own bytes below offset `6 + j`, the old ones
elsewhere. -/
theorem rowPacksThePixels : Obligations.RowPacksThePixels := by
  intro s t hs hi hr h i j k hiw hk hij cell
  obtain ⟨-, rfl⟩ := exec_next_effect rfl hr h
  obtain ⟨⟨-, -, hb⟩, -⟩ := config_of_not_refused hi hr
  have hj : j < s.rowBytes := packedIndex_lt hb (hij ▸ hiw)
  have hrb := rowBytes_le s
  rw [effect_row, packedField_rowEffect _ hs hb hj hk, ← hij, memRead_rowEffect]
  have hpixel := pixelField_pixel (s := rowPrefix s (Config.pad s.padIndex) j) (Config.pad s.padIndex) k
    (by rwa [rowPrefix_width]) (by rwa [rowPrefix_bpp])
  rw [hpixel, rowPrefix_bpp, rowPrefix_psrc, memRead_rowPrefix s _ (Nat.le_of_lt hj) (by omega)]

/-- Settles O44: a place beyond WIDTH gets the draw's field at that place. -/
theorem rowPaddingIsADraw : Obligations.RowPaddingIsADraw := by
  intro s t hs hi hr h j k hj hk hbeyond
  obtain ⟨-, rfl⟩ := exec_next_effect rfl hr h
  obtain ⟨⟨-, -, hb⟩, -⟩ := config_of_not_refused hi hr
  have hpad := pixelField_padding (s := rowPrefix s (Config.pad s.padIndex) j) (Config.pad s.padIndex) (k := k)
    (by rw [rowPrefix_width]; exact Nat.not_lt.mpr hbeyond) (by rwa [rowPrefix_bpp])
  rw [rowPrefix_bpp] at hpad
  exact (packedField_rowEffect _ hs hb hj hk).trans hpad

/-! One row: the Adler pair (R115). -/

theorem startRow_adlerPair (s : State) :
    s.startRow.adlerPair = if s.rowcnt = 0 then (1, 0) else s.adlerPair := by
  rw [State.startRow]
  split <;> rfl

/-- The filter byte and the packed bytes in memory after a row are those the packing loop computed, in order. -/
theorem checksummedBytes_rowEffect {s : State} (p : Byte) (hs : s.mem.wf = true) :
    (s.rowEffect p).checksummedBytes s.pdst s.rowBytes =
      filterByte :: (List.range s.rowBytes).map fun j => (rowPrefix s p j).packedByte p j := by
  have hcell (j : Nat) : s.pdst + 5 + 1 + addrOf j = s.pdst + addrOf (6 + j) := by
    rw [← add_addrOf_addrOf s.pdst 6 j, BitVec.add_assoc s.pdst 5 1]
    rfl
  rw [State.checksummedBytes, buffer_cons]
  congr 1
  · exact memRead_rowEffect_filter p hs
  · refine List.map_congr_left fun j hj => ?_
    rw [hcell, memRead_rowEffect_packed p hs (List.mem_range.mp hj)]

/-- The pair runs over the bytes as they stand in memory, from the pair the row starts with. -/
theorem adlerPair_rowEffect {s : State} (p : Byte) (hs : s.mem.wf = true) :
    (s.rowEffect p).adlerPair =
      adlerPairRun s.startRow.adlerPair ((s.rowEffect p).checksummedBytes s.pdst s.rowBytes) := by
  rw [checksummedBytes_rowEffect p hs, ← adlerPair_rowPrefix, rowEffect_eq]
  rfl

/-- Settles O45: the bytes the pair runs over are the bytes in memory, byte for byte. -/
theorem rowChecksumsTheBytesEmitted : Obligations.RowChecksumsTheBytesEmitted := by
  intro s t hs hr h
  obtain ⟨-, rfl⟩ := exec_next_effect rfl hr h
  rw [← startRow_adlerPair]
  exact adlerPair_rowEffect _ hs

/-! The padding draw (R116): two rows that differ in it alone. -/

theorem writeBytes_setPadIndex (s : State) (m : Nat) (a : Address) (bs : List Byte) :
    ({ s with padIndex := m }).writeBytes a bs = { s.writeBytes a bs with padIndex := m } := by
  induction bs generalizing s a with
  | nil => rfl
  | cons v bs ih => exact ih (s.memWrite a v) (a + 1)

theorem startRow_setPadIndex (s : State) (m : Nat) :
    ({ s with padIndex := m }).startRow = { s.startRow with padIndex := m } := by
  simp only [State.startRow]
  split <;> rfl

/-- The draw's counter is not read while a row is written. -/
theorem rowPrefix_setPadIndex (s : State) (p : Byte) (m n : Nat) :
    rowPrefix { s with padIndex := m } p n = { rowPrefix s p n with padIndex := m } := by
  induction n with
  | zero =>
    rw [rowPrefix_zero, rowPrefix_zero, startRow_setPadIndex, writeBytes_setPadIndex]
    rfl
  | succ n ih =>
    rw [rowPrefix_succ, rowPrefix_succ, ih]
    rfl

theorem memRead_rowEffect_setPadIndex (s : State) (p : Byte) (m : Nat) (c : Address) :
    (State.rowEffect { s with padIndex := m } p).memRead c = (s.rowEffect p).memRead c := by
  rw [memRead_rowEffect, memRead_rowEffect, rowPrefix_setPadIndex]
  rfl

/-- A pixel within the row does not depend on the draw. -/
theorem pixelField_draw {s : State} {i : Nat} (hi : i < s.width.toNat) (p q : Byte) (k : Nat) :
    s.pixelField p i k = s.pixelField q i k := by
  rw [State.pixelField, State.pixelField, if_pos hi, if_pos hi]

/-- A packed byte all of whose places are pixels does not depend on the draw. -/
theorem packedByte_draw {s : State} {j : Nat} (hj : (j + 1) * s.pixelsPerByte ≤ s.width.toNat) (p q : Byte) :
    s.packedByte p j = s.packedByte q j := by
  rw [packedByte_eq_packFields, packedByte_eq_packFields]
  refine packFields_congr fun k hk => pixelField_draw ?_ p q k
  rw [Nat.succ_mul] at hj
  omega

/-- The row up to the packed byte that may hold padding does not depend on the draw. -/
theorem rowPrefix_draw {s : State} {n : Nat} (hn : n * s.pixelsPerByte ≤ s.width.toNat) (p q : Byte) :
    rowPrefix s p n = rowPrefix s q n := by
  induction n with
  | zero => rw [rowPrefix_zero, rowPrefix_zero]
  | succ n ih =>
    have hfull : (n + 1) * (rowPrefix s q n).pixelsPerByte ≤ (rowPrefix s q n).width.toNat := by
      rwa [State.pixelsPerByte, rowPrefix_bpp, rowPrefix_width]
    have hprefix := ih ((Nat.mul_le_mul_right _ (Nat.le_succ n)).trans hn)
    rw [rowPrefix_succ, rowPrefix_succ, hprefix, packedByte_draw hfull p q]

/-- Every packed byte but the last is full of pixels (R113). -/
theorem fullBytes_le_width {s : State} (hb : s.bpp.toNat ∈ [1, 2, 4, 8]) :
    (s.rowBytes - 1) * s.pixelsPerByte ≤ s.width.toNat := by
  simp only [State.rowBytes, State.pixelsPerByte]
  simp only [List.mem_cons, List.not_mem_nil, or_false] at hb
  rcases hb with hd | hd | hd | hd <;> rw [hd] <;> omega

/-- A legal configuration has at least one packed byte (R113). -/
theorem rowBytes_pos {s : State} (hw : 1 ≤ s.width.toNat) (hb : s.bpp.toNat ∈ [1, 2, 4, 8]) : 1 ≤ s.rowBytes :=
  packedIndex_lt (j := 0) (k := 0) hb (by omega)

/-- Beside the last packed byte a row leaves the same memory whatever the draw. -/
theorem memRead_rowEffect_draw {s : State} (hw : 1 ≤ s.width.toNat) (hb : s.bpp.toNat ∈ [1, 2, 4, 8]) (p q : Byte)
    {c : Address} (hc : c ≠ s.pdst + addrOf (5 + s.rowBytes)) :
    (s.rowEffect p).memRead c = (s.rowEffect q).memRead c := by
  obtain ⟨n, hn⟩ : ∃ n, s.rowBytes = n + 1 := Nat.exists_eq_add_of_le' (rowBytes_pos hw hb)
  have hfull : n * s.pixelsPerByte ≤ s.width.toNat := by simpa [hn] using fullBytes_le_width hb
  have before (r : Byte) : (s.rowEffect r).memRead c = (rowPrefix s r n).memRead c := by
    rw [hn, show 5 + (n + 1) = 6 + n by omega] at hc
    rw [memRead_rowEffect, hn, rowPrefix_succ, memRead_emitByte_other _ _ (by rwa [rowPrefix_pdst])]
  rw [before, before, rowPrefix_draw hfull p q]

/-- The pixels of the last packed byte are the same whatever the draw. -/
theorem packedField_rowEffect_draw {s : State} (hs : s.mem.wf = true) (hw : 1 ≤ s.width.toNat)
    (hb : s.bpp.toNat ∈ [1, 2, 4, 8]) (p q : Byte) {k : Nat}
    (hpixel : (s.rowBytes - 1) * (8 / s.bpp.toNat) + k < s.width.toNat) (hk : k < 8 / s.bpp.toNat) :
    packedField ((s.rowEffect p).memRead (s.pdst + addrOf (5 + s.rowBytes))) s.bpp.toNat k =
      packedField ((s.rowEffect q).memRead (s.pdst + addrOf (5 + s.rowBytes))) s.bpp.toNat k := by
  have hpos := rowBytes_pos hw hb
  have hlast : s.rowBytes - 1 < s.rowBytes := by omega
  rw [show 5 + s.rowBytes = 6 + (s.rowBytes - 1) by omega, packedField_rowEffect p hs hb hlast hk,
    packedField_rowEffect q hs hb hlast hk, rowPrefix_draw (fullBytes_le_width hb) p q,
    pixelField_draw (by rwa [rowPrefix_width]) p q k]

/-- Settles O46: the two rows agree up to the last packed byte, and in it at every pixel. -/
theorem paddingDrawReachesOnlyThePadding : Obligations.PaddingDrawReachesOnlyThePadding := by
  intro s t u n hs hi hr ht hu rb
  obtain ⟨-, rfl⟩ := exec_next_effect rfl hr ht
  obtain ⟨-, rfl⟩ := exec_next_effect (s := { s with padIndex := n }) rfl hr hu
  obtain ⟨⟨hw, -, hb⟩, -⟩ := config_of_not_refused hi hr
  have hread (c : Address) :
      (effect .row { s with padIndex := n }).memRead c = (s.rowEffect (Config.pad n)).memRead c :=
    memRead_rowEffect_setPadIndex s _ n c
  refine ⟨fun c hc => ?_, fun k hpixel hk => ?_, ?_⟩
  · rw [hread]
    exact memRead_rowEffect_draw hw hb _ _ hc
  · rw [hread]
    exact packedField_rowEffect_draw hs hw hb _ _ hpixel hk
  · rw [effect_row, effect_row, rowEffect_eq, rowEffect_eq]
    rfl

/-! The rows of an image (R117, R118). -/

/-- Configured, bound, every access admitted, and `n` rows of the image left to emit at least. -/
structure RowsLeft (n : Nat) (s : State) : Prop where
  config : ConfigInvariant s
  admits : AdmitsEverything s
  cfgd : s.status.cfgd = true
  bound : s.status.bound = true
  left : s.rowcnt.toNat + n ≤ s.height.toNat

theorem RowsLeft.not_refused {n : Nat} {s : State} (h : RowsLeft (n + 1) s) : ¬ RefusalHolds .row s := by
  have hdone : s.status.done = false := by
    rw [← Bool.not_eq_true, (h.config.1 h.cfgd).2.2]
    intro he
    have := h.left
    rw [he] at this
    omega
  simp [RefusalHolds, h.cfgd, h.bound, hdone]

theorem RowsLeft.exec_row {n : Nat} {s : State} (h : RowsLeft (n + 1) s) :
    exec .row s = .next (s.rowEffect (Config.pad s.padIndex)) :=
  exec_completes rfl h.not_refused (accessesAdmitted_of_admitsEverything h.admits .row)

theorem RowsLeft.rowcnt_rowEffect {n : Nat} {s : State} (h : RowsLeft (n + 1) s) (p : Byte) :
    (s.rowEffect p).rowcnt.toNat = s.rowcnt.toNat + 1 :=
  rowcnt_rowEffect_toNat p (by have := h.left; omega)

theorem RowsLeft.rowEffect {n : Nat} {s : State} (h : RowsLeft (n + 1) s) (p : Byte) :
    RowsLeft n (s.rowEffect p) where
  config := configInvariant_row p h.config h.not_refused
  admits := (rowEffect_memAdmit s p).trans h.admits
  cfgd := by rw [rowEffect_status, emitRow_cfgd, h.cfgd]
  bound := by rw [rowEffect_status, emitRow_bound, h.bound]
  left := by
    have := h.left
    rw [h.rowcnt_rowEffect, rowEffect_height]
    omega

/-- What `n` ROWs from `s` leave in the last state `t`, put in the decompressed stream and answer in all. -/
structure RowsEmitted (n : Nat) (s t : State) (bytes : List Byte) (total : Nat) : Prop where
  ready : RowsLeft 0 t
  rowcnt : t.rowcnt.toNat = s.rowcnt.toNat + n
  height : t.height = s.height
  pdst : t.pdst = s.pdst + addrOf (n * (6 + s.rowBytes))
  total_eq : total = n * (6 + s.rowBytes)
  length : bytes.length = n * (1 + s.rowBytes)
  wf : s.mem.wf = true → t.mem.wf = true
  pair : s.mem.wf = true → t.startRow.adlerPair = adlerPairRun s.startRow.adlerPair bytes

theorem rowsEmitted_zero {s : State} (h : RowsLeft 0 s) : RowsEmitted 0 s s [] 0 where
  ready := h
  rowcnt := rfl
  height := rfl
  pdst := by rw [Nat.zero_mul, addrOf, BitVec.add_zero]
  total_eq := (Nat.zero_mul _).symm
  length := (Nat.zero_mul _).symm
  wf := id
  pair := fun _ => rfl

/-- After a row ROWCNT is not 0, so the next row goes on from the pair as it is (R115). -/
theorem RowsLeft.startRow_rowEffect {n : Nat} {s : State} (h : RowsLeft (n + 1) s) (p : Byte) :
    (s.rowEffect p).startRow = s.rowEffect p := by
  have hcnt := h.rowcnt_rowEffect p
  rw [State.startRow, if_neg]
  intro h0
  rw [h0] at hcnt
  simp at hcnt

/-- One row before `n` more. -/
theorem RowsEmitted.cons {n : Nat} {s t : State} {bytes : List Byte} {total : Nat} (hs : RowsLeft (n + 1) s) (p : Byte)
    (h : RowsEmitted n (s.rowEffect p) t bytes total) :
    RowsEmitted (n + 1) s t ((s.rowEffect p).checksummedBytes s.pdst s.rowBytes ++ bytes)
      (6 + s.rowBytes + total) where
  ready := h.ready
  rowcnt := by
    rw [h.rowcnt, hs.rowcnt_rowEffect, Nat.add_assoc, Nat.add_comm 1 n]
  height := h.height.trans (rowEffect_height s p)
  pdst := by
    rw [h.pdst, rowEffect_pdst, rowEffect_rowBytes, add_addrOf_addrOf, Nat.succ_mul, Nat.add_comm]
  total_eq := by
    rw [h.total_eq, rowEffect_rowBytes, Nat.succ_mul, Nat.add_comm]
  length := by
    rw [List.length_append, State.checksummedBytes, length_buffer, h.length, rowEffect_rowBytes, Nat.succ_mul,
      Nat.add_comm]
  wf := fun hwf => h.wf (wf_rowEffect p hwf)
  pair := fun hwf => by
    rw [h.pair (wf_rowEffect p hwf), hs.startRow_rowEffect, adlerPair_rowEffect p hwf, adlerPairRun_append]

theorem rowRun_succ {n total : Nat} {s t u : State} {bytes : List Byte} (h : exec .row s = .next u)
    (hn : rowRun n u = some (t, bytes, total)) :
    rowRun (n + 1) s = some (t, u.checksummedBytes s.pdst s.rowBytes ++ bytes, u.ret.toNat + total) := by
  rw [rowRun, h]
  dsimp only
  rw [hn]
  rfl

/-- As many ROWs as rows are left complete. -/
theorem rowRun_completes {n : Nat} {s : State} (h : RowsLeft n s) :
    ∃ t bytes total, rowRun n s = some (t, bytes, total) ∧ RowsEmitted n s t bytes total := by
  induction n generalizing s with
  | zero => exact ⟨s, [], 0, rfl, rowsEmitted_zero h⟩
  | succ n ih =>
    obtain ⟨t, bytes, total, hrun, hemit⟩ := ih (h.rowEffect (Config.pad s.padIndex))
    refine ⟨t, _, _, rowRun_succ h.exec_row hrun, ?_⟩
    rw [ret_rowEffect_toNat]
    exact hemit.cons h _

/-- From ROWCNT = 0 a whole image is left. -/
theorem rowsLeft_height {s : State} (hi : ConfigInvariant s) (ha : AdmitsEverything s) (hc : s.status.cfgd = true)
    (hb : s.status.bound = true) (h0 : s.rowcnt = 0) : RowsLeft s.height.toNat s :=
  ⟨hi, ha, hc, hb, by rw [h0]; exact Nat.le_of_eq (Nat.zero_add _)⟩

theorem RowsLeft.exec_adst {n : Nat} {s : State} (h : RowsLeft n s) :
    exec .adst s = .next (s.storeAtCursor s.adlerWord) :=
  Machine.exec_adst h.bound (accessesAdmitted_of_admitsEverything h.admits .adst)

/-- HEIGHT rows from ROWCNT = 0 bring ROWCNT to HEIGHT. -/
theorem RowsEmitted.rowcnt_eq_height {s t : State} {bytes : List Byte} {total : Nat}
    (h : RowsEmitted s.height.toNat s t bytes total) (h0 : s.rowcnt = 0) : t.rowcnt = t.height := by
  apply BitVec.eq_of_toNat_eq
  rw [h.rowcnt, h0, h.height]
  exact Nat.zero_add _

/-- Settles O47: the response and the advance of each row depend on the configuration alone, and DONE is set by R31. -/
theorem imageSizeDoesNotDependOnThePixels : Obligations.ImageSizeDoesNotDependOnThePixels := by
  intro s hi ha hc hb h0 rb
  obtain ⟨t, bytes, total, hrun, hemit⟩ := rowRun_completes (rowsLeft_height hi ha hc hb h0)
  have hdone : t.status.done = true := (hemit.ready.config.1 hemit.ready.cfgd).2.2.mpr (hemit.rowcnt_eq_height h0)
  refine ⟨t, bytes, total, _, hrun, hemit.ready.exec_adst, ?_, ?_, ?_⟩ <;> rw [storeAtCursor_eq] <;> dsimp only
  · rw [hemit.total_eq]
    rfl
  · rw [hemit.pdst, show (4 : Address) = addrOf 4 from rfl, add_addrOf_addrOf, BitVec.toNat_add, BitVec.toNat_ofNat,
      Nat.add_mod_mod]
    rfl
  · exact hdone

/-- Settles O48: the pair runs over the rows' bytes in turn from (1, 0), and ADST stores its word at PDST. -/
theorem streamTrailerIsTheAdlerOfTheRows : Obligations.StreamTrailerIsTheAdlerOfTheRows := by
  intro s hs hi ha hc hb h0
  obtain ⟨t, bytes, total, hrun, hemit⟩ := rowRun_completes (rowsLeft_height hi ha hc hb h0)
  have hne : t.rowcnt ≠ 0 := by
    have hheight := (hi.1 hc).1.2.1
    rw [hemit.rowcnt_eq_height h0, hemit.height]
    bv_omega
  have hpair := hemit.pair hs
  rw [startRow_adlerPair, startRow_adlerPair, if_neg hne, if_pos h0] at hpair
  exact ⟨t, bytes, total, _, hrun, hemit.length, hpair, hemit.ready.exec_adst, buffer_storeAtCursor _ (hemit.wf hs)⟩

end Sys2Proof.Machine
end

section
/-! PROOFS. The statement of the family 43_system.md: RD answers the register its index selects (R27, R130), or is a
command error (R77). -/

namespace Sys2Proof.Machine

/-- STATUS is its four flags from bit 0 up, and 0 above them (R27, index 0). -/
theorem toWord_toNat (f : Status) :
    f.toWord.toNat = f.cfgd.toNat + 2 * f.bound.toNat + 4 * f.done.toNat + 8 * f.ill.toNat := by
  obtain ⟨cfgd, bound, done, ill⟩ := f
  revert cfgd bound done ill
  decide

/-- DIMS is `HEIGHT * 256 + WIDTH` (R27, index 6). -/
theorem dimsWord_toNat (height width : BitVec 8) :
    ((height ++ width : Half).setWidth 32).toNat = height.toNat * 256 + width.toNat := by
  rw [BitVec.toNat_setWidth_of_le (by decide), dims_toNat]

/-- RD of an index that selects a value answers it, and RET alone changes (R130). -/
theorem exec_rd_of_readIndex {s : State} {reg : Half} {w : Word32} (h : s.readIndex reg = some w) :
    exec (.rd reg) s = .next { s with ret := w, received := s.responses w } := by
  rw [exec, execRd, h]
  rfl

/-- The same with the selected value given as a number. -/
theorem rd_answers_number {s : State} {reg : Half} {w : Word32} {v : Nat} (h : s.readIndex reg = some w)
    (hv : w.toNat = v) :
    ∃ w : Word32, w.toNat = v ∧ exec (.rd reg) s = .next { s with ret := w, received := s.responses w } :=
  ⟨w, hv, exec_rd_of_readIndex h⟩

/-- Settles O49: the value of R27 at each of the nine indices; an index above 8 fails RD's own test, a nonzero B the test
of the reserved fields. -/
theorem rdReadsTheRegisterByIndex : Obligations.RdReadsTheRegisterByIndex := by
  intro s reads
  refine ⟨?status, ?ret, ?crcr, ?adler, ?psrc, ?pdst, ?dims, ?bpp, ?rowcnt, fun reg hreg => ?above,
    fun cw hop hb => ?reserved⟩
  case status => exact rd_answers_number rfl (toWord_toNat s.status)
  case ret => exact rd_answers_number rfl rfl
  case crcr => exact rd_answers_number rfl rfl
  case adler => exact rd_answers_number rfl (adlerWord_toNat s)
  case psrc => exact rd_answers_number rfl (BitVec.toNat_setWidth_of_le (by decide))
  case pdst => exact rd_answers_number rfl (BitVec.toNat_setWidth_of_le (by decide))
  case dims => exact rd_answers_number rfl (dimsWord_toNat s.height s.width)
  case bpp => exact rd_answers_number rfl (BitVec.toNat_setWidth_of_le (by decide))
  case rowcnt => exact rd_answers_number rfl (BitVec.toNat_setWidth_of_le (by decide))
  case above => exact exec_illFormed (decide_eq_false (Nat.not_le.mpr hreg))
  case reserved => exact (illegalWordsAreCommandErrors cw).1 (.inr (.inl (.inr (.inl ⟨hop, hb⟩)))) s

end Sys2Proof.Machine
end

section
/-! PROOFS. The statements of the family 50_host_and_surroundings.md: the cells a command writes (R54, R140), and the
host's own stores and loads between commands (R51, R59, R140). -/

namespace Sys2Proof.Machine

/-! The memory frame of every command. -/

/-- CRCST and ADST write the four cells of the shared store and ROW its own `6 + rb` (R54); every other effect leaves
memory itself as it was. -/
theorem memRead_effect_outside (i : Instr) (s : State) {c : Address} (h : ¬ InSpan s.pdst (bytesWritten i s) c) :
    (effect i s).memRead c = s.memRead c := by
  cases i with
  | crc32 addr len => exact memRead_congr rfl c
  | crcst => exact memRead_storeAtCursor_outside s s.crcr h
  | adrst => exact memRead_congr rfl c
  | adupd addr len => exact memRead_congr (by rw [effect_adupd]) c
  | adst => exact memRead_storeAtCursor_outside s s.adlerWord h
  | cfg width height bpp => exact memRead_congr rfl c
  | bind src dst => exact memRead_congr rfl c
  | row => exact memRead_rowEffect_outside s (Config.pad s.padIndex) h
  | rd reg => exact memRead_congr rfl c

/-- Settles O20: a command error and a refusal write no cell, an effect only those from PDST that its rule names. -/
theorem onlyTheNamedCellsAreWritten : Obligations.OnlyTheNamedCellsAreWritten := by
  intro i s t h c hc
  obtain rfl | rfl | ⟨-, -, rfl⟩ := exec_next h
  · exact memRead_congr (raiseCommandError_mem s .badOperand) c
  · exact memRead_congr (refuse_mem s) c
  · exact memRead_effect_outside i s hc

/-! The host's own accesses (R140). -/

theorem step_store {s : State} {a : Address} {v : Byte} {rest : List HostAction} (h : s.host = .store a v :: rest) :
    step s = .next ({ s with host := rest }.memWrite a v) :=
  step_of_host_cons h

theorem step_load {s : State} {a : Address} {rest : List HostAction} (h : s.host = .load a :: rest) :
    step s = .next ({ s with host := rest }.hostLoad a) :=
  step_of_host_cons h

/-- Settles O11: a store is one `MemWrite`, with its read-after-write and its frame (R51); a load writes no cell. -/
theorem hostStoresAndLoadsBetweenCommands : Obligations.HostStoresAndLoadsBetweenCommands := by
  refine ⟨fun s a v rest hstore hs => ?_, fun s a rest hload => step_load hload⟩
  have hsame := memRead_memWrite_same (s := { s with host := rest }) a v hs
  have hother (c : Address) (hc : c ≠ a) := memRead_memWrite_other { s with host := rest } v hc
  exact ⟨_, step_store hstore, hsame, hother, rfl⟩

end Sys2Proof.Machine
end

section
/-! PROOFS. The statements of the family 60_exceptions.md: the three endings of a command (R160), refusals (R163, R164),
and the idle block (R174). -/

namespace Sys2Proof.Machine

/-! Idle (R152, R174). -/

/-- Settles O10: the step of a block with no move left is `idle`. -/
theorem idleStepKeepsTheState : Obligations.IdleStepKeepsTheState := by
  intro s h
  rw [step, h]
  rfl

/-! Refusals (R163, R164). -/

/-- Settles O19: each of the conditions is R164's for its command, and a refusal is a response 0 alone. -/
theorem refusalsChangeRetAlone : Obligations.RefusalsChangeRetAlone :=
  fun _ => ⟨fun hb => exec_refused (i := .crcst) hb, fun hb => exec_refused (i := .adst) hb,
    fun hr => exec_refused (i := .row) hr⟩

/-! Completion (R71, R160). -/

/-- Every effect ends in `respond`: its response word is the value left in RET, given once (R71). -/
theorem received_effect (i : Instr) (s : State) : (effect i s).received = s.responses (effect i s).ret := by
  cases i with
  | crc32 addr len => rfl
  | crcst => rw [effect_crcst]
  | adrst => rfl
  | adupd addr len => rw [effect_adupd]
  | adst => rw [effect_adst]
  | cfg width height bpp => rfl
  | bind src dst => rfl
  | row => rw [effect_row, rowEffect_received, rowEffect_ret]
  | rd reg => rfl

/-- Only a command error writes ILL (R161). -/
theorem ill_effect {i : Instr} (hw : i.wellFormed = true) (s : State) :
    (effect i s).status.ill = s.status.ill := by
  obtain ⟨-, -, -, -, -, -, -, -, -, hill, -⟩ := writesNamedRegistersOnly_effect i s
  by_contra hne
  rw [hill hne] at hw
  nomatch hw

/-- A legal index selects the value that RD answers (R27, R130). -/
theorem readIndex_eq_ret_effect_rd {reg : Half} (hw : (Instr.rd reg).wellFormed = true) (s : State) :
    s.readIndex reg = some (effect (.rd reg) s).ret := by
  obtain ⟨w, hread⟩ := Option.isSome_iff_exists.mp ((readIndex_isSome s reg).mpr ((legalReadIndex_iff reg).mp hw))
  rw [effect_rd, hread]
  rfl

/-- A legal command that is not refused completes where the launch admits every access (R56). -/
theorem exec_of_admitsEverything {i : Instr} {s : State} (hs : AdmitsEverything s) (hw : i.wellFormed = true)
    (hr : ¬ RefusalHolds i s) : exec i s = .next (effect i s) :=
  exec_completes hw hr (accessesAdmitted_of_admitsEverything hs i)

/-- Settles O18: an illegal word is the command error of O14; a legal one is its command, which is refused or has its
effect, and R71's table is read off the effect command by command. -/
theorem everyCommandEndsInOneOfThreeWays : Obligations.EveryCommandEndsInOneOfThreeWays := by
  intro cw s hs
  refine ⟨fun hill => ⟨_, (illegalWordsAreCommandErrors cw).1 hill s, rfl, rfl, rfl⟩, ?refused, ?completes⟩
  case refused =>
    rintro i - rfl hr
    rw [runCommand_encode]
    exact exec_refused hr
  case completes =>
    rintro i hw rfl hr
    rw [runCommand_encode]
    refine ⟨effect i s, exec_of_admitsEverything hs hw hr, received_effect i s, ill_effect hw s, ?_⟩
    cases i with
    | crc32 addr len => exact ⟨rfl, rfl⟩
    | crcst => rfl
    | adrst => rfl
    | adupd addr len => exact ret_effect_adupd addr len s
    | adst => rfl
    | cfg width height bpp => rfl
    | bind src dst => rfl
    | row => exact ret_rowEffect_toNat s (Config.pad s.padIndex)
    | rd reg => exact readIndex_eq_ret_effect_rd hw s

end Sys2Proof.Machine
end
